-- ==== Sys2Proof/Word.lean ====
section
/-! DEFINITION. The word types of the block: bytes of the wire, the 16-bit big-endian fields, the
binary64 parameter registers (spec 00_scope.md R6, 10_state.md R31). -/

namespace Sys2Proof

/-- An 8-bit unsigned byte (R6). -/
abbrev Byte := BitVec 8

/-- A 16-bit unsigned wire field: length, systemId, commandId (R52). -/
abbrev U16 := BitVec 16

/-- The bits of an IEEE 754 binary64 value (R31). -/
abbrev B64 := BitVec 64

end Sys2Proof
end

