-- ==== Sys2Proof/Syntax.lean ====
section
/-! DEFINITION. The instructions: one constructor per row of spec/opcode_table.json, the four header
bytes of a frame, and the Command of the spec's decoder (30_encoding.md, 40_frame_decoder.md). -/

namespace Sys2Proof

/-- A PixelTriple: "three 8-bit unsigned channel values (r,g,b)" (R10, R53). -/
structure Pixel where
  r : Byte
  g : Byte
  b : Byte
deriving DecidableEq, Repr

/-- The four header bytes `hb[0..3]` (R23, R80). -/
structure HeaderBytes where
  b0 : Byte
  b1 : Byte
  b2 : Byte
  b3 : Byte
deriving DecidableEq, Repr

/-- The ports an instruction arrives on: a connection's byte stream, or the control port (R80, R91). -/
inductive Port where
  | wire
  | control
deriving DecidableEq, Repr

/-- An instruction: a whole OPC frame with every byte of it kept, or a control operation. -/
inductive Instr where
  /-- SETPIX (R111): `pixels` are the complete triples, `trailing` the dropped last bytes. -/
  | setpix (channel : Byte) (pixels : List Pixel) (trailing : List Byte)
  /-- SETPIX_NOOP (R112): an undersized pixel payload. -/
  | setpixNoop (channel : Byte) (payload : List Byte)
  /-- SYSEX_SHORT (R114): a sysEx with no sub-header. -/
  | sysexShort (channel : Byte) (payload : List Byte)
  /-- SYSEX_CC (R115): colour correction, systemId 1 and commandId 1. -/
  | sysexCc (channel : Byte) (body : List Byte)
  /-- SYSEX_FWFLAGS (R116): firmware flags, systemId 1 and commandId 2. -/
  | sysexFwflags (channel : Byte) (body : List Byte)
  /-- SYSEX_EXT_UNREC (R117): systemId 1 and another commandId. -/
  | sysexExtUnrec (channel : Byte) (commandId : U16) (body : List Byte)
  /-- SYSEX_DEV_UNREC (R118): a systemId other than 1. -/
  | sysexDevUnrec (channel : Byte) (systemId : U16) (commandId : U16) (body : List Byte)
  /-- UNKNOWN (R119): a command byte 0x01..0xFE. -/
  | unknown (channel : Byte) (raw : Byte) (payload : List Byte)
  /-- CTRL_START (R181). -/
  | ctrlStart
  /-- CTRL_STOP (R183). -/
  | ctrlStop
  /-- CTRL_STANDBY_ON (R184). -/
  | ctrlStandbyOn
  /-- CTRL_STANDBY_OFF (R187). -/
  | ctrlStandbyOff
  /-- CTRL_ILLEGAL (R190). -/
  | ctrlIllegal (code : Byte)
deriving DecidableEq, Repr

/-- The decoder's result type of R110: the tagged union the spec gives. -/
inductive Command where
  | setPixels (channel : Byte) (pixels : List Pixel)
  | noOp
  | sysEx (systemId : U16) (commandId : U16) (body : List Byte)
  | unknown (raw : Byte)
deriving DecidableEq, Repr

end Sys2Proof
end

