-- ==== Sys2Proof/WellFormed.lean ====
section
/-! DEFINITION. Which instructions are words of the opcode table: the length and field constraints of
30_encoding.md R88 and R93 on the operands. -/

namespace Sys2Proof

/-- The port an instruction arrives on. -/
def Instr.port : Instr → Port
  | .setpix .. => .wire
  | .setpixNoop .. => .wire
  | .sysexShort .. => .wire
  | .sysexCc .. => .wire
  | .sysexFwflags .. => .wire
  | .sysexExtUnrec .. => .wire
  | .sysexDevUnrec .. => .wire
  | .unknown .. => .wire
  | .ctrlStart => .control
  | .ctrlStop => .control
  | .ctrlStandbyOn => .control
  | .ctrlStandbyOff => .control
  | .ctrlIllegal _ => .control

/-- The constraint column of R93, with the payload size at most 65535 (R81). -/
def Instr.wf : Instr → Bool
  | .setpix _ pixels trailing =>
      decide (1 ≤ pixels.length) && decide (trailing.length ≤ 2) &&
        decide (3 * pixels.length + trailing.length ≤ 65535)
  | .setpixNoop _ payload => decide (payload.length ≤ 2)
  | .sysexShort _ payload => decide (payload.length ≤ 3)
  | .sysexCc _ body => decide (body.length + 4 ≤ 65535)
  | .sysexFwflags _ body => decide (body.length + 4 ≤ 65535)
  | .sysexExtUnrec _ commandId body =>
      decide (commandId ≠ 1) && decide (commandId ≠ 2) && decide (body.length + 4 ≤ 65535)
  | .sysexDevUnrec _ systemId _ body =>
      decide (systemId ≠ 1) && decide (body.length + 4 ≤ 65535)
  | .unknown _ raw payload =>
      decide (raw ≠ 0x00) && decide (raw ≠ 0xFF) && decide (payload.length ≤ 65535)
  | .ctrlStart => true
  | .ctrlStop => true
  | .ctrlStandbyOn => true
  | .ctrlStandbyOff => true
  | .ctrlIllegal code =>
      decide (code ≠ 0x01) && decide (code ≠ 0x02) && decide (code ≠ 0x03) && decide (code ≠ 0x04)

end Sys2Proof
end

