-- ==== Sys2Proof/Decode.lean ====
section
/-! DEFINITION. The decoder of 40_frame_decoder.md (total on a header and its payload), the decode of a
control code (30_encoding.md R91), the decode of a byte stream (rejecting a truncated frame by name),
and after them the encoder, written from 30_encoding.md R80, R84, R85, R91. -/

namespace Sys2Proof

/-- The big-endian 16-bit field `hi ++ lo` (R6, R52). -/
def u16be (hi lo : Byte) : U16 := hi ++ lo

/-- Header byte 0: the channel (R80). -/
def HeaderBytes.channel (h : HeaderBytes) : Byte := h.b0

/-- Header byte 1: the command (R80). -/
def HeaderBytes.command (h : HeaderBytes) : Byte := h.b1

/-- Header bytes 2 and 3: `length = length_hi*256 + length_lo` (R80, R81). -/
def HeaderBytes.length (h : HeaderBytes) : U16 := u16be h.b2 h.b3

/-- The header word `H[31:0] = hb[0] ++ hb[1] ++ hb[2] ++ hb[3]` (R80). -/
def HeaderBytes.word (h : HeaderBytes) : BitVec 32 := h.b0 ++ h.b1 ++ h.b2 ++ h.b3

/-- Consecutive 3-byte `(r, g, b)` tuples and the 0, 1 or 2 bytes left over (R84). -/
def triples : List Byte → List Pixel × List Byte
  | r :: g :: b :: rest => (⟨r, g, b⟩ :: (triples rest).1, (triples rest).2)
  | rest => ([], rest)

/-- The classification of a sysEx that has a sub-header (R88, R115 to R118). -/
def decodeSubHeader (channel : Byte) (systemId commandId : U16) (body : List Byte) : Instr :=
  if systemId = 1 then
    if commandId = 1 then .sysexCc channel body
    else if commandId = 2 then .sysexFwflags channel body
    else .sysexExtUnrec channel commandId body
  else .sysexDevUnrec channel systemId commandId body

/-- The decode map of R88 on the header and its payload bytes `pb[0..len-1]`. The precondition is the
spec's: the payload has exactly `length` bytes (R110); then the last sysEx alternative cannot arise. -/
def decodePayload (h : HeaderBytes) (payload : List Byte) : Instr :=
  if h.command = 0x00 then
    if 3 ≤ h.length.toNat then .setpix h.channel (triples payload).1 (triples payload).2
    else .setpixNoop h.channel payload
  else if h.command = 0xFF then
    if h.length.toNat ≤ 3 then .sysexShort h.channel payload
    else
      match payload with
      | s1 :: s0 :: c1 :: c0 :: body => decodeSubHeader h.channel (u16be s1 s0) (u16be c1 c0) body
      | short => .sysexShort h.channel short
  else .unknown h.channel h.command payload

/-- The spec's Command of a frame (R110): what each form hands to the dispatcher. A control operation
is no frame and has none. -/
def Instr.command : Instr → Option Command
  | .setpix channel pixels _ => some (.setPixels channel pixels)
  | .setpixNoop _ _ => some .noOp
  | .sysexShort _ _ => some (.sysEx 0 0 [])
  | .sysexCc _ body => some (.sysEx 1 1 body)
  | .sysexFwflags _ body => some (.sysEx 1 2 body)
  | .sysexExtUnrec _ commandId body => some (.sysEx 1 commandId body)
  | .sysexDevUnrec _ systemId commandId body => some (.sysEx systemId commandId body)
  | .unknown _ raw _ => some (.unknown raw)
  | .ctrlStart => none
  | .ctrlStop => none
  | .ctrlStandbyOn => none
  | .ctrlStandbyOff => none
  | .ctrlIllegal _ => none

/-- The control codes of R91. -/
def decodeCtrl (code : Byte) : Instr :=
  if code = 0x01 then .ctrlStart
  else if code = 0x02 then .ctrlStop
  else if code = 0x03 then .ctrlStandbyOn
  else if code = 0x04 then .ctrlStandbyOff
  else .ctrlIllegal code

/-- Why a byte stream holds no whole frame: "Header validation is therefore only completeness" (R81). -/
inductive Reject where
  /-- Fewer than four header bytes. -/
  | truncHeader (got : Nat)
  /-- Fewer payload bytes than the header declares. -/
  | truncPayload (len got : Nat)
deriving DecidableEq, Repr

/-- One frame from the front of a byte stream, and the bytes after it (R80, R90). -/
def decodeFrame : List Byte → Except Reject (Instr × List Byte)
  | b0 :: b1 :: b2 :: b3 :: rest =>
    let h : HeaderBytes := ⟨b0, b1, b2, b3⟩
    let n := h.length.toNat
    if rest.length < n then .error (.truncPayload n rest.length)
    else .ok (decodePayload h (rest.take n), rest.drop n)
  | short => .error (.truncHeader short.length)

/-- The two bytes of a big-endian 16-bit field, high byte first (R52). -/
def u16Bytes (v : U16) : List Byte := [v.extractLsb' 8 8, v.extractLsb' 0 8]

/-- A frame: channel, command, big-endian length, payload (R80). -/
def frameBytes (channel command : Byte) (payload : List Byte) : List Byte :=
  [channel, command] ++ u16Bytes (BitVec.ofNat 16 payload.length) ++ payload

/-- The bytes of one pixel, in the order r, g, b (R53). -/
def pixelBytes (p : Pixel) : List Byte := [p.r, p.g, p.b]

/-- A sysEx payload: systemId, commandId, body (R85). -/
def sysexBytes (systemId commandId : U16) (body : List Byte) : List Byte :=
  u16Bytes systemId ++ u16Bytes commandId ++ body

/-- The bytes of an instruction, first byte first: a frame on the wire, or one control code. -/
def encode : Instr → List Byte
  | .setpix channel pixels trailing => frameBytes channel 0x00 (pixels.flatMap pixelBytes ++ trailing)
  | .setpixNoop channel payload => frameBytes channel 0x00 payload
  | .sysexShort channel payload => frameBytes channel 0xFF payload
  | .sysexCc channel body => frameBytes channel 0xFF (sysexBytes 1 1 body)
  | .sysexFwflags channel body => frameBytes channel 0xFF (sysexBytes 1 2 body)
  | .sysexExtUnrec channel commandId body => frameBytes channel 0xFF (sysexBytes 1 commandId body)
  | .sysexDevUnrec channel systemId commandId body =>
      frameBytes channel 0xFF (sysexBytes systemId commandId body)
  | .unknown channel raw payload => frameBytes channel raw payload
  | .ctrlStart => [0x01]
  | .ctrlStop => [0x02]
  | .ctrlStandbyOn => [0x03]
  | .ctrlStandbyOff => [0x04]
  | .ctrlIllegal code => [code]

/-- Byte `k` of a row's bits: they are laid out as 32-bit words, the first word first, each word
big-endian (the header word H and the sub-header word X of R80 and R85). -/
def tableByte (w k : Nat) : Byte := BitVec.ofNat 8 (w >>> (32 * (k / 4) + 8 * (3 - k % 4)))

/-- The header bytes a row's bits give. -/
def tableHeader (nbits w : Nat) : HeaderBytes :=
  let v := w % 2 ^ nbits
  ⟨tableByte v 0, tableByte v 1, tableByte v 2, tableByte v 3⟩

/-- The `n` payload bytes a row's bits give; bits above `nbits` are 0. -/
def tablePayload (nbits w n : Nat) : List Byte :=
  (List.range n).map fun a => tableByte (w % 2 ^ nbits) (4 + a)

/-- The instruction whose bits are `w`, numbered as spec/opcode_table.json numbers them: a row of at
most 8 bits is a control code, a longer one a frame whose first word is the header word H. -/
def decodeTableWord (nbits w : Nat) : Option Instr :=
  if nbits ≤ 8 then some (decodeCtrl (BitVec.ofNat 8 (w % 2 ^ nbits)))
  else
    let h := tableHeader nbits w
    some (decodePayload h (tablePayload nbits w h.length.toNat))

end Sys2Proof
end

