-- ==== Sys2Proof/Config.lean ====
section
/-! DEFINITION. The parameters of 00_scope.md R5 and the free values the spec leaves open. The
parameters that change behaviour are plain data (a field of State holds them, so a statement about
every state is a statement about every value of them); N_CONN is the number of connection records. -/

namespace Sys2Proof

/-- `ROUND_TIE` (R5, R8, decision D5: OPEN). -/
inductive RoundTie where
  | halfEven
  | halfAway
deriving DecidableEq, Repr

/-- Four binary64 values: the parameter registers (GAMMA, WP[0], WP[1], WP[2]) of R31, and the result
of `CC_PARSE` (R214). -/
structure CcParams where
  gamma : B64
  wp0 : B64
  wp1 : B64
  wp2 : B64
deriving DecidableEq, Repr

/-- Construction parameters "fixed for the life of the instance" (R271): whether each consumer is
attached, and the tie rule of the LUT formula. -/
structure Config where
  hasPixConsumer : Bool
  hasCcConsumer : Bool
  roundTie : RoundTie
deriving DecidableEq, Repr

/-- `MAX_LEN`, the largest payload length (R5). -/
def Config.maxLen : Nat := 65535

/-- The payload buffer has 65535 bytes, offsets 0..65534 (R25, R50). -/
def Config.payloadSize : Nat := 65535

/-- `READ_TIMEOUT` (R5, OPEN). No step reads it: the block sees the host's RX_TIMEOUT (log 10). -/
opaque Config.readTimeout : Nat

/-- `STANDBY_WAIT` (R5, OPEN). No step reads it: the block sees STANDBY_WAIT_EXPIRED (log 10). -/
opaque Config.standbyWait : Nat

/-- FREE VALUE (log 7). Whether a text is "a structured record with fields `gamma` (number) and
`whitepoint` (3-element numeric sequence)" (R214 P3): the source gives no grammar (N11). -/
opaque Config.isCcRecord : List Byte → Bool

/-- FREE VALUE (log 7). What the body parser returns where P1 to P6 of R214 leave it open; it "may
return any binary64 values, including non-positive or non-finite ones" (P5). -/
opaque Config.ccParseFree : List Byte → Option CcParams

end Sys2Proof
end

