-- ==== Sys2Proof/Machine/State.lean ====
section
/-! DEFINITION. The state of the block (10_state.md R20 to R36), the events it emits (60_exceptions.md
R240, R241), the moves of its agents (60_exceptions.md R249), the reasons a step can stop, and the
state after reset (70_reset_and_hazards.md R270). -/

namespace Sys2Proof.Machine

open Sys2Proof

/-- `run` (R21). -/
inductive RunState where
  | idle
  | running
  | terminated
  | failed
deriving DecidableEq, Repr

/-- `conn[i].fsm` (R22): `Closed`, `AwaitingHeader`, `AwaitingPayload`, `Dispatch`. -/
inductive Fsm where
  | closed
  | hdr
  | pay
  | disp
deriving DecidableEq, Repr

/-- A payload buffer: the bytes written so far, by offset, in the form `Memory.wf`. An offset that is
not listed was never written and has no value (log 4). -/
abbrev Memory := List Host.Cell

/-- One connection record (R22 to R27). -/
structure Conn where
  fsm : Fsm
  hcount : Nat
  hb : HeaderBytes
  len : U16
  pb : Memory
  pcount : Nat
  /-- The decoded-command latch (R26); it keeps the whole decoded instruction (log 11). -/
  cmd : Option Instr
  closing : Bool
deriving DecidableEq, Repr

/-- `lock` (R29). -/
inductive Lock where
  | free
  | conn (i : Nat)
  | standby
deriving DecidableEq, Repr

/-- `LUT[k][i]` (R32): three tables of 256 8-bit entries, `t0` for r, `t1` for g, `t2` for b. -/
structure Lut where
  t0 : Vector Byte 256
  t1 : Vector Byte 256
  t2 : Vector Byte 256
deriving DecidableEq, Repr

/-- `out` (R34), the consumer output slot. -/
inductive Out where
  | none
  | pix (pixels : List Pixel)
  | cc (params : CcParams)
deriving DecidableEq, Repr

/-- The event names of R240. -/
inductive EventCode where
  | framingTruncHeader
  | framingTruncPayload
  | readTimeout
  | peerClosed
  | connAbortedStop
  | unknownCommand
  | sysexUnknownDevice
  | sysexUnknownExtension
  | ccDecodeError
  | fwBodyEmpty
  | invalidGamma
  | invalidWhitepoint
  | ccSuppressedStandby
  | lockTimeout
  | standbyNotEngaged
  | ctrlIllegal
  | ctrlBadState
  | bindError
deriving DecidableEq, Repr

/-- One value of an event's `info` list (R241). -/
inductive InfoVal where
  | num (n : Nat)
  | fsm (f : Fsm)
  | b64 (v : B64)
deriving DecidableEq, Repr

/-- `EVENT(code : u8, conn : u8 or NONE, info)` (R241). -/
structure EventRec where
  code : EventCode
  conn : Option Byte
  info : List InfoVal
deriving DecidableEq, Repr

/-- The responses of the control port (R91, R191). -/
inductive Response where
  | ok
  | lockTimeout
  | bindError
  | notEngaged
  | badState
  | illegal
deriving DecidableEq, Repr

/-- The moves of the agents: the inputs of R249, and the internal steps of the dispatcher and of the
standby arbiter, which a schedule picks (R246, log 1). -/
inductive Move where
  /-- Host: `CONN_OPEN(i)` (R170). -/
  | connOpen (i : Nat)
  /-- Host: `RX_BYTE(i, b)` (R171, R173). -/
  | rxByte (i : Nat) (b : Byte)
  /-- Host: `RX_EOF(i)` (R176 to R178). -/
  | rxEof (i : Nat)
  /-- Host: `RX_TIMEOUT(i)` (R179). -/
  | rxTimeout (i : Nat)
  /-- Host: `STANDBY_WAIT_EXPIRED` (R186). -/
  | standbyWaitExpired
  /-- Controller: one operation (R91), with the host's bind answer for the case of START (R182). -/
  | ctrl (code : Byte) (bindOk : Bool)
  /-- Consumer: `CONS_ACK` (R221). -/
  | consAck
  /-- Host: reset (R270). -/
  | reset
  /-- Dispatcher: the one step connection `i` can take in `DISP` (R210: R211 or R219). -/
  | dispatch (i : Nat)
  /-- Standby arbiter: the grant (R185). -/
  | grant
deriving DecidableEq, Repr

/-- The whole state. The fields from `resps` on are the model's own (INVENTORY.md, State). -/
structure State where
  run : RunState
  conns : List Conn
  lock : Lock
  stbyReq : Bool
  params : CcParams
  lut : Lut
  fw : BitVec 4
  out : Out
  events : List EventRec
  /-- The control responses given so far, oldest first (R191, log 13). -/
  resps : List Response
  /-- The construction parameters (R271); no step changes them (log 6). -/
  cfg : Config
  /-- The connection whose command is being served: the `i` of R211 and R219 (log 19). -/
  cur : Nat
  /-- The host's answer to a bind request (R182, log 14). -/
  bindOk : Bool
  /-- The moves offered to the block, in the order they are offered (log 1). -/
  sched : List Move
deriving DecidableEq, Repr

/-- Why the machine stops. "No step of this block faults" (R9): each of these is for states that no
run from reset reaches, and each is SAFE (the model stops where no rule says what happens). -/
inductive Fault where
  /-- Raised by the framer's payload write (R173) at an offset outside 0..65534, which does not exist. -/
  | payloadOffset
  /-- Raised by the decode step (R174) when a payload byte it reads was never written (log 4). -/
  | payloadUnwritten
  /-- Raised by CONS_ACK (R221) when an output is pending and no dispatch holds the lock (log 20). -/
  | ackWithoutDispatch
deriving DecidableEq, Repr

/-- Why an instruction is turned away. -/
inductive Refusal where
  /-- Raised by exec's arm of an instruction that has no meaning yet; SAFE. No arm raises it. -/
  | notModelled (mnemonic : String)
deriving DecidableEq, Repr

/-- binary64 1.0, the reset value of GAMMA and of each WP[k] (R31). -/
def b64One : B64 := 0x3FF0000000000000

/-- "default gamma=1.0, whitepoint=(1,1,1)" (R31, R270). -/
def paramsReset : CcParams := ⟨b64One, b64One, b64One, b64One⟩

/-- One table of the reset LUT: `LUT[k][i] = i` (R32, R270). -/
def identityRow : Vector Byte 256 := Vector.ofFn fun i => BitVec.ofNat 8 i.val

/-- A connection record after reset (R270). The spec leaves `hb` and `len` unspecified: zero is the
model's choice (log 3). `pb` lists nothing (log 4). -/
def Conn.reset : Conn where
  fsm := .closed
  hcount := 0
  hb := ⟨0, 0, 0, 0⟩
  len := 0
  pb := []
  pcount := 0
  cmd := none
  closing := false

/-- The state after reset of an instance with `n` connection records and parameters `cfg` (R270, R271),
with the moves `sched` offered. -/
def State.resetWith (cfg : Config) (n : Nat) (sched : List Move) : State where
  run := .idle
  conns := List.replicate n Conn.reset
  lock := .free
  stbyReq := false
  params := paramsReset
  lut := ⟨identityRow, identityRow, identityRow⟩
  fw := 0
  out := .none
  events := []
  resps := []
  cfg := cfg
  cur := 0
  bindOk := false
  sched := sched

/-- The machine right after reset. The parameters of the instance are open (R5); the model names
N_CONN = 2 (log 5), both consumers attached and HALF_EVEN (log 6), and nothing offered (log 2). -/
def State.reset : State := State.resetWith ⟨true, true, .halfEven⟩ 2 []

end Sys2Proof.Machine
end

