-- ==== Sys2Proof/Machine/Operands.lean ====
section
/-! DEFINITION. Reading operands: a payload byte and a whole payload, the two memories' read and write
(20_memory.md R50), a LUT entry, a parameter register by colour component. -/

namespace Sys2Proof.Machine

open Sys2Proof

/-- The canonical form: offsets strictly rising, every offset one the buffer has (R25). Unlisted
offsets have no value, so no listed byte can equal one. -/
abbrev Memory.wf (m : Memory) : Prop :=
  m.Pairwise (fun x y => x.1 < y.1) ∧ ∀ x ∈ m, x.1 < Config.payloadSize

/-- `Payload(c, a)` (R7): the byte at offset `a`, if one was written there. -/
def Memory.read : Memory → Nat → Option Byte
  | [], _ => none
  | (x, v) :: rest, a => if x = a then some v else Memory.read rest a

/-- `PayloadWrite(c, a, b)` (R7), keeping the offsets rising. -/
def Memory.write : Memory → Nat → Byte → Memory
  | [], a, b => [(a, b)]
  | (x, v) :: rest, a, b =>
    if a < x then (a, b) :: (x, v) :: rest
    else if a = x then (a, b) :: rest
    else (x, v) :: Memory.write rest a b

/-- The `n` bytes from offset `a` on, if each was written. -/
def Memory.readRange (m : Memory) (a : Nat) : Nat → Option (List Byte)
  | 0 => some []
  | n + 1 =>
    match m.read a, m.readRange (a + 1) n with
    | some b, some bs => some (b :: bs)
    | _, _ => none

/-- The frame's payload `pb[0..len-1]` (R174). -/
def Conn.payload (c : Conn) : Option (List Byte) := c.pb.readRange 0 c.len.toNat

/-- `hb[j] <- b` (R171). -/
def setHeaderByte (h : HeaderBytes) (j : Nat) (b : Byte) : HeaderBytes :=
  match j with
  | 0 => { h with b0 := b }
  | 1 => { h with b1 := b }
  | 2 => { h with b2 := b }
  | 3 => { h with b3 := b }
  | _ => h

/-- Entry `i` of one table; every byte is an index (R54), `clampIndex` is the identity on it (R145). -/
def tableEntry (t : Vector Byte 256) (i : Byte) : Byte := t[i.toNat]'i.isLt

/-- The table of colour component `k`: 0 = r, 1 = g, 2 = b (R10, R32). -/
def Lut.table (l : Lut) : Fin 3 → Vector Byte 256
  | 0 => l.t0
  | 1 => l.t1
  | 2 => l.t2

/-- `LUT[k][i]` (R7, R32). -/
def Lut.entry (l : Lut) (k : Fin 3) (i : Byte) : Byte := tableEntry (l.table k) i

/-- The table's internal address `k[1:0] ++ i[7:0]` (R51); it is visible on no port. -/
def lutAddr (k : Fin 3) (i : Byte) : BitVec 10 := BitVec.ofNat 2 k.val ++ i

/-- `WP[k]` (R31). -/
def whitepoint (p : CcParams) : Fin 3 → B64
  | 0 => p.wp0
  | 1 => p.wp1
  | 2 => p.wp2

/-- Whether the instruction is a colour-correction sysEx, `SysEx(1, 1, body)` (R210). -/
def isColourCorrection : Instr → Bool
  | .sysexCc _ _ => true
  | .setpix .. => false
  | .setpixNoop .. => false
  | .sysexShort .. => false
  | .sysexFwflags .. => false
  | .sysexExtUnrec .. => false
  | .sysexDevUnrec .. => false
  | .unknown .. => false
  | .ctrlStart => false
  | .ctrlStop => false
  | .ctrlStandbyOn => false
  | .ctrlStandbyOff => false
  | .ctrlIllegal _ => false

/-- Connection `i` is in framer state `f`; a slot `i ≥ N_CONN` is in none (log 22). -/
def State.connIn (s : State) (i : Nat) (f : Fsm) : Bool :=
  match s.conns[i]? with
  | some c => decide (c.fsm = f)
  | none => false

end Sys2Proof.Machine
end

