-- ==== Sys2Proof/Machine/Flags.lean ====
section
/-! DEFINITION. The firmware flags: how the wire byte gives them (30_encoding.md R87, 43_dispatcher.md
R215), and the status outputs (10_state.md R36). -/

namespace Sys2Proof.Machine

open Sys2Proof

/-- `fw[3:0] <- body[0][3:0]`: bit 0 noDither, bit 1 noInterp, bit 2 manualLED, bit 3 ledOnOff. -/
def fwOfByte (b : Byte) : BitVec 4 := b.extractLsb' 0 4

/-- The flag noDither, `fw[0]` (R33). -/
def State.noDither (s : State) : Bool := s.fw.getLsbD 0

/-- The flag noInterp, `fw[1]` (R33). -/
def State.noInterp (s : State) : Bool := s.fw.getLsbD 1

/-- The flag manualLED, `fw[2]` (R33). -/
def State.manualLed (s : State) : Bool := s.fw.getLsbD 2

/-- The flag ledOnOff, `fw[3]` (R33). -/
def State.ledOnOff (s : State) : Bool := s.fw.getLsbD 3

/-- Status output `FW_FLAGS[3:0]` (R36). -/
def State.fwFlags (s : State) : BitVec 4 := s.fw

/-- Status output `STANDBY_ACTIVE` (R36). -/
def State.standbyActive (s : State) : Bool := decide (s.lock = .standby)

/-- Status output `RUN_STATE` (R36). -/
def State.runState (s : State) : RunState := s.run

end Sys2Proof.Machine
end

