-- ==== Sys2Proof/Machine/Ops.lean ====
section
/-! DEFINITION. The shared operations: emitting an event (this block's form of raising an error,
60_exceptions.md R241, R242, R247: there is no vector, saved counter or handler, and no return), giving
a control response, changing one connection record, presenting an output, and entering and leaving a
dispatch (43_dispatcher.md R211, R219, R222). -/

namespace Sys2Proof.Machine

open Sys2Proof

/-- The result of a step of the block. -/
abbrev Result := Host.Outcome State Fault Refusal

/-- The numeric codes of R240. -/
def EventCode.toByte : EventCode → Byte
  | .framingTruncHeader => 0x01
  | .framingTruncPayload => 0x02
  | .readTimeout => 0x03
  | .peerClosed => 0x04
  | .connAbortedStop => 0x05
  | .unknownCommand => 0x10
  | .sysexUnknownDevice => 0x11
  | .sysexUnknownExtension => 0x12
  | .ccDecodeError => 0x20
  | .fwBodyEmpty => 0x21
  | .invalidGamma => 0x28
  | .invalidWhitepoint => 0x29
  | .ccSuppressedStandby => 0x30
  | .lockTimeout => 0x31
  | .standbyNotEngaged => 0x32
  | .ctrlIllegal => 0x33
  | .ctrlBadState => 0x34
  | .bindError => 0x3F

/-- An event about connection slot `i`; the record's slot number is a u8 (R241, log 15). -/
def connEvent (code : EventCode) (i : Nat) (info : List InfoVal) : EventRec :=
  ⟨code, some (BitVec.ofNat 8 i), info⟩

/-- An event tied to no connection (R241: codes 0x31 to 0x3F). -/
def portEvent (code : EventCode) (info : List InfoVal) : EventRec := ⟨code, none, info⟩

/-- `emit EVENT(...)`: append one record to the event output (R7, R241). -/
def State.emit (s : State) (e : EventRec) : State := { s with events := s.events ++ [e] }

/-- `respond R`: give the controller its response (R191). -/
def State.respond (s : State) (r : Response) : State := { s with resps := s.resps ++ [r] }

/-- `present X`: `out <- X` (R221). -/
def State.present (s : State) (o : Out) : State := { s with out := o }

/-- `lock <- l` (R29). -/
def State.setLock (s : State) (l : Lock) : State := { s with lock := l }

/-- Change connection record `i` alone. -/
def State.modifyConn (s : State) (i : Nat) (f : Conn → Conn) : State :=
  { s with conns := s.conns.modify i f }

/-- A record after its frame is discarded and its connection closed (R177 to R179, R183): the latch is
empty outside DISP (R26, log 12). -/
def Conn.close (c : Conn) : Conn := { c with fsm := .closed, hcount := 0, pcount := 0, cmd := none }

/-- A record ready for the next header after a command has been served (R219, R222). -/
def Conn.nextHeader (c : Conn) : Conn := { c with fsm := .hdr, hcount := 0, pcount := 0, cmd := none }

/-- DispatchEnd(i) (R222): release the lock and return the framer to reading, or close the connection
when STOP came during the dispatch. -/
def dispatchEnd (i : Nat) (s : State) : State :=
  match s.conns[i]? with
  | some c =>
    if c.closing then
      ((s.setLock .free).modifyConn i fun c => { c.close with closing := false }).emit
        (connEvent .connAbortedStop i [.fsm .disp, .num 0, .num 0])
    else (s.setLock .free).modifyConn i Conn.nextHeader
  | none => s.setLock .free

/-- The end of R211: `if out == NONE: DispatchEnd(i)`, else the dispatch stays open until CONS_ACK. -/
def endIfNoOutput (i : Nat) (s : State) : State :=
  if s.out = .none then dispatchEnd i s else s

/-- DISPATCH_START(i) for `i = cur` (R211): take the lock, apply the command, end the dispatch if it
presented nothing. Enabled when the connection is in DISP and the lock is free; otherwise the
connection waits (R210, log 18). -/
def dispatchStart (apply : Nat → State → State) (s : State) : Result :=
  if s.connIn s.cur .disp ∧ s.lock = .free then
    .next (endIfNoOutput s.cur (apply s.cur (s.setLock (.conn s.cur))))
  else .next s

/-- A control operation: enabled when the controller has no response outstanding, that is no
STANDBY_ON request waits (R191); otherwise the controller waits (log 13, log 18). -/
def controlOp (apply : State → State) (s : State) : Result :=
  if s.stbyReq then .next s else .next (apply s)

end Sys2Proof.Machine
end

