-- ==== Sys2Proof/Machine/Control.lean ====
section
/-! DEFINITION. The control operations (42_framer_control.md R181 to R191). -/

namespace Sys2Proof.Machine

open Sys2Proof

/-- CTRL START (R181); `bindOk` is the host's draw (R182). -/
def startOp (s : State) : State :=
  if s.run ≠ .idle then (s.respond .badState).emit (portEvent .ctrlBadState [.num 0x01])
  else if s.bindOk then ({ s with run := .running }).respond .ok
  else (({ s with run := .failed }).emit (portEvent .bindError [])).respond .bindError

/-- CTRL_START. -/
def execCtrlStart (s : State) : Result := controlOp startOp s

/-- Whether STOP closes the record now: it is open and does not hold the lock (R183). -/
def stopCloses (holdsLock : Bool) (c : Conn) : Bool := !holdsLock && decide (c.fsm ≠ .closed)

/-- What STOP does to one record: the holder of the lock closes when its dispatch ends (R183). -/
def stopConn (holdsLock : Bool) (c : Conn) : Conn :=
  if holdsLock then { c with closing := true }
  else if stopCloses holdsLock c then c.close
  else c

/-- The events of STOP, in slot order from slot `i` on: the record's state before it is closed (R183). -/
def stopEvents (lock : Lock) : Nat → List Conn → List EventRec
  | _, [] => []
  | i, c :: rest =>
    (if stopCloses (decide (lock = .conn i)) c then
      [connEvent .connAbortedStop i [.fsm c.fsm, .num c.hcount, .num c.pcount]] else []) ++
      stopEvents lock (i + 1) rest

/-- The records after STOP, from slot `i` on. -/
def stopConns (lock : Lock) : Nat → List Conn → List Conn
  | _, [] => []
  | i, c :: rest => stopConn (decide (lock = .conn i)) c :: stopConns lock (i + 1) rest

/-- `if run in {IDLE, RUNNING}: run <- TERMINATED` (R183). -/
def stopRun : RunState → RunState
  | .idle => .terminated
  | .running => .terminated
  | .terminated => .terminated
  | .failed => .failed

/-- CTRL STOP (R183). -/
def stopOp (s : State) : State :=
  ({ s with
      run := stopRun s.run
      conns := stopConns s.lock 0 s.conns
      events := s.events ++ stopEvents s.lock 0 s.conns }).respond .ok

/-- CTRL_STOP. -/
def execCtrlStop (s : State) : Result := controlOp stopOp s

/-- CTRL STANDBY_ON (R184, R188): engaged already or engaged now, else the request waits and its
response stays outstanding. -/
def standbyOnOp (s : State) : State :=
  match s.lock with
  | .standby => s.respond .ok
  | .free => (s.setLock .standby).respond .ok
  | .conn _ => { s with stbyReq := true }

/-- CTRL_STANDBY_ON. -/
def execCtrlStandbyOn (s : State) : Result := controlOp standbyOnOp s

/-- CTRL STANDBY_OFF (R187, R189): a lock held by a dispatch is never released. -/
def standbyOffOp (s : State) : State :=
  if s.lock = .standby then (s.setLock .free).respond .ok
  else (s.emit (portEvent .standbyNotEngaged [])).respond .notEngaged

/-- CTRL_STANDBY_OFF. -/
def execCtrlStandbyOff (s : State) : Result := controlOp standbyOffOp s

/-- CTRL_ILLEGAL (R190). -/
def execCtrlIllegal (code : Byte) (s : State) : Result :=
  controlOp (fun s => (s.emit (portEvent .ctrlIllegal [.num code.toNat])).respond .illegal) s

end Sys2Proof.Machine
end

