-- ==== Sys2Proof/Machine/Binary64.lean ====
section
/-! DEFINITION. IEEE 754 binary64 values as the exact numbers they denote (10_state.md R31,
41_color_corrector.md R140): classification, and the magnitude as a fraction in lowest terms. -/

namespace Sys2Proof.Machine

open Sys2Proof

/-- The sign bit: set on negative values and on -0.0. -/
def f64Sign (v : B64) : Bool := v.getLsbD 63

/-- The 11-bit biased exponent. -/
def f64Exp (v : B64) : Nat := (v.extractLsb' 52 11).toNat

/-- The 52-bit fraction field. -/
def f64Frac (v : B64) : Nat := (v.extractLsb' 0 52).toNat

/-- `isNaN` of R142. -/
def f64IsNaN (v : B64) : Bool := decide (f64Exp v = 2047) && decide (f64Frac v ≠ 0)

/-- `isInf` of R142. -/
def f64IsInf (v : B64) : Bool := decide (f64Exp v = 2047) && decide (f64Frac v = 0)

/-- Neither NaN nor infinite. -/
def f64IsFinite (v : B64) : Bool := decide (f64Exp v ≠ 2047)

/-- The integer significand: the hidden bit is 1 except in zeros and subnormals. -/
def f64Mant (v : B64) : Nat := if f64Exp v = 0 then f64Frac v else 2 ^ 52 + f64Frac v

/-- `v <= 0` of R142, for a value that is not NaN: negative, +0.0 or -0.0. -/
def f64IsNonPos (v : B64) : Bool := f64Sign v || decide (f64Mant v = 0)

/-- The scale of binary64: every finite magnitude is a multiple of `2 / f64Unit`. -/
def f64Unit : Nat := 2 ^ 1075

/-- A finite value's magnitude is `f64Mant v * 2^e / f64Unit` with `e = max 1 (f64Exp v)`; this is the
numerator before reduction. -/
def f64Scaled (v : B64) : Nat := f64Mant v * 2 ^ max 1 (f64Exp v)

/-- The numerator of the magnitude in lowest terms. -/
def f64Num (v : B64) : Nat := f64Scaled v / Nat.gcd (f64Scaled v) f64Unit

/-- The denominator of the magnitude in lowest terms. -/
def f64Den (v : B64) : Nat := f64Unit / Nat.gcd (f64Scaled v) f64Unit

end Sys2Proof.Machine
end

