-- ==== Sys2Proof/Machine/Lut.lean ====
section
/-! DEFINITION. The colour-correction LUT engine (41_color_corrector.md): the table formula of R140 in
exact arithmetic, LUT_COMPUTE (R142) and LUT_APPLY (R145).

`i^g * w` for `g = p/q` and `w = a/b` is compared with the half-integer `(2n+1)/2` exactly, as
`i^p * (2a)^q` against `((2n+1) b)^q`: both sides of `i^g * w` against `(2n+1)/2`, divided by `w`,
raised to the power `q` and multiplied out (log 17). -/

namespace Sys2Proof.Machine

open Sys2Proof

/-- `round_T(v) ≥ n + 1` for `v = i^(p/q) * (a/b) ≥ 0`: `v` lies above `n + 1/2`, or is exactly
`n + 1/2` and the tie goes up, which it does to the even neighbour when `n` is odd and always under
HALF_AWAY (R8). -/
def roundsAbove (tie : RoundTie) (i p q a b n : Nat) : Bool :=
  let lhs := i ^ p * (2 * a) ^ q
  let rhs := ((2 * n + 1) * b) ^ q
  decide (rhs < lhs) || (decide (lhs = rhs) && (decide (tie = .halfAway) || decide (n % 2 = 1)))

/-- `lutEntry(i, g, w) = clamp(0, 255, round_T(i^g * w))` (R140), for finite `g > 0` and finite `w`.
The clamped rounding is the number of `n` in 0..254 with `round_T(i^g * w) ≥ n + 1`; a negative `w`
gives 0 for every `n`. -/
def lutEntry (tie : RoundTie) (i : Byte) (g w : B64) : Byte :=
  if f64Sign w then 0
  else
    BitVec.ofNat 8 ((List.range 255).countP fun n =>
      roundsAbove tie i.toNat (f64Num g) (f64Den g) (f64Num w) (f64Den w) n)

/-- The 256 entries of one colour component (R142). -/
def lutRow (tie : RoundTie) (g w : B64) : Vector Byte 256 :=
  Vector.ofFn fun i : Fin 256 => lutEntry tie (BitVec.ofNat 8 i.val) g w

/-- The whole table of a parameter set (R32, R142). -/
def lutTable (tie : RoundTie) (p : CcParams) : Lut :=
  ⟨lutRow tie p.gamma p.wp0, lutRow tie p.gamma p.wp1, lutRow tie p.gamma p.wp2⟩

/-- The checks of R142 in their order: the gamma first, then the whitepoint components 0, 1, 2; the
first failing one gives the one event of R245. -/
def paramError (p : CcParams) : Option (EventCode × InfoVal) :=
  if f64IsNaN p.gamma || f64IsInf p.gamma || f64IsNonPos p.gamma then
    some (.invalidGamma, .b64 p.gamma)
  else if f64IsNaN p.wp0 || f64IsInf p.wp0 then some (.invalidWhitepoint, .num 0)
  else if f64IsNaN p.wp1 || f64IsInf p.wp1 then some (.invalidWhitepoint, .num 1)
  else if f64IsNaN p.wp2 || f64IsInf p.wp2 then some (.invalidWhitepoint, .num 2)
  else none

/-- The outcome of LUT_COMPUTE (R142). -/
inductive ComputeResult where
  | ok
  | fail
deriving DecidableEq, Repr

/-- LUT_COMPUTE(g, w0, w1, w2) in the dispatch of connection `i` (R142): on a failed check raise
InvalidParameter and change nothing else; else replace the parameters and the table together. -/
def lutCompute (i : Nat) (p : CcParams) (s : State) : ComputeResult × State :=
  match paramError p with
  | some (code, info) => (.fail, s.emit (connEvent code i [info]))
  | none => (.ok, { s with params := p, lut := lutTable s.cfg.roundTie p })

/-- One pixel through the table: r by table 0, g by table 1, b by table 2 (R145). -/
def applyPixel (l : Lut) (p : Pixel) : Pixel :=
  ⟨l.entry 0 p.r, l.entry 1 p.g, l.entry 2 p.b⟩

/-- LUT_APPLY(pixels) (R145): one table for the whole frame, the same order. -/
def lutApply (l : Lut) (pixels : List Pixel) : List Pixel := pixels.map (applyPixel l)

end Sys2Proof.Machine
end

