-- ==== Sys2Proof/Machine/Pixel.lean ====
section
/-! DEFINITION. Dispatch of the pixel commands: SETPIX (43_dispatcher.md R212) and SETPIX_NOOP (R213). -/

namespace Sys2Proof.Machine

open Sys2Proof

/-- The body of R212: the corrected pixels go to the consumer if one is attached (R220). -/
def applySetPixels (pixels : List Pixel) (_i : Nat) (s : State) : State :=
  if s.cfg.hasPixConsumer then s.present (.pix (lutApply s.lut pixels)) else s

/-- SETPIX (R212): neither the channel nor the trailing bytes are passed on (R82, R111). -/
def execSetpix (_channel : Byte) (pixels : List Pixel) (_trailing : List Byte) (s : State) : Result :=
  dispatchStart (applySetPixels pixels) s

/-- Dispatch of `NoOp` (R213): "nothing; no output, no event". -/
def execSetpixNoop (_channel : Byte) (_payload : List Byte) (s : State) : Result :=
  dispatchStart (fun _ s => s) s

end Sys2Proof.Machine
end

