-- ==== Sys2Proof/Machine/CcParse.lean ====
section
/-! DEFINITION. The body-parser parameter CC_PARSE (00_scope.md R5, 43_dispatcher.md R214): a free
function of Config restricted to the properties P1 to P6 the spec gives, and nothing more. -/

namespace Sys2Proof.Machine

open Sys2Proof

/-- A UTF-8 continuation byte between `lo` and `hi`. -/
def utf8Tail (lo hi b : Byte) : Bool := decide (lo ≤ b) && decide (b ≤ hi)

/-- "valid UTF-8" (R214 P2): PRESUMED the standard definition, with no overlong form, no surrogate and
no code point above U+10FFFF (log 8). -/
def utf8Valid : List Byte → Bool
  | [] => true
  | b0 :: rest =>
    if b0 ≤ 0x7F then utf8Valid rest
    else if b0 < 0xC2 then false
    else if b0 ≤ 0xDF then
      match rest with
      | b1 :: rest => utf8Tail 0x80 0xBF b1 && utf8Valid rest
      | [] => false
    else if b0 ≤ 0xEF then
      match rest with
      | b1 :: b2 :: rest =>
        utf8Tail (if b0 = 0xE0 then 0xA0 else 0x80) (if b0 = 0xED then 0x9F else 0xBF) b1 &&
          utf8Tail 0x80 0xBF b2 && utf8Valid rest
      | _ => false
    else if b0 ≤ 0xF4 then
      match rest with
      | b1 :: b2 :: b3 :: rest =>
        utf8Tail (if b0 = 0xF0 then 0x90 else 0x80) (if b0 = 0xF4 then 0x8F else 0xBF) b1 &&
          utf8Tail 0x80 0xBF b2 && utf8Tail 0x80 0xBF b3 && utf8Valid rest
      | _ => false
    else false

/-- The fewest bytes a text with a field named `gamma` (5 bytes) holding a number and a field named
`whitepoint` (10 bytes) holding three numbers can have: the names and one byte for each of the four
numbers. DEDUCED from R214 P3 (log 9). -/
def ccRecordMin : Nat := 19

/-- The 34-byte example body `{"gamma":2.0,"whitepoint":[1,1,1]}` (R214 P4; its bytes as in
95_test_vectors.md W2). -/
def ccExampleBody : List Byte :=
  [0x7B, 0x22, 0x67, 0x61, 0x6D, 0x6D, 0x61, 0x22, 0x3A, 0x32, 0x2E, 0x30, 0x2C, 0x22, 0x77, 0x68,
   0x69, 0x74, 0x65, 0x70, 0x6F, 0x69, 0x6E, 0x74, 0x22, 0x3A, 0x5B, 0x31, 0x2C, 0x31, 0x2C, 0x31,
   0x5D, 0x7D]

/-- `Some(2.0, 1.0, 1.0, 1.0)` in binary64 (R214 P4). -/
def ccExampleParams : CcParams :=
  ⟨0x4000000000000000, 0x3FF0000000000000, 0x3FF0000000000000, 0x3FF0000000000000⟩

/-- `CC_PARSE(body)` (R214): total in the body alone (P1); the example (P4); `None` on what is not
valid UTF-8 (P2), too short to hold the record (P3, P6) or no such record (P3); free elsewhere (P5). -/
def ccParse (body : List Byte) : Option CcParams :=
  if body = ccExampleBody then some ccExampleParams
  else if utf8Valid body && decide (ccRecordMin ≤ body.length) && Config.isCcRecord body then
    Config.ccParseFree body
  else none

end Sys2Proof.Machine
end

