-- ==== Sys2Proof/Machine/SysEx.lean ====
section
/-! DEFINITION. Dispatch of the sysEx and unknown commands (43_dispatcher.md R214 to R219). -/

namespace Sys2Proof.Machine

open Sys2Proof

/-- The body of R214: parse, compute, and notify the consumer only when LUT_COMPUTE succeeded. -/
def applyColourCorrection (body : List Byte) (i : Nat) (s : State) : State :=
  match ccParse body with
  | none => s.emit (connEvent .ccDecodeError i [])
  | some p =>
    match lutCompute i p s with
    | (.ok, s) => if s.cfg.hasCcConsumer then s.present (.cc p) else s
    | (.fail, s) => s

/-- CC_SUPPRESS(i) for `i = cur` (R219): parsed but not applied; the lock is not taken. -/
def ccSuppress (body : List Byte) (s : State) : State :=
  (match ccParse body with
    | none => s.emit (connEvent .ccDecodeError s.cur [])
    | some _ => s.emit (connEvent .ccSuppressedStandby s.cur [])).modifyConn s.cur Conn.nextHeader

/-- SYSEX_CC: suppressed while standby is engaged (R210(a), R219), else dispatched (R211, R214). -/
def execSysexCc (_channel : Byte) (body : List Byte) (s : State) : Result :=
  if s.connIn s.cur .disp ∧ s.lock = .standby then .next (ccSuppress body s)
  else dispatchStart (applyColourCorrection body) s

/-- The body of R215: all four flags assigned from the first body byte; an empty body changes none. -/
def applyFwFlags (body : List Byte) (i : Nat) (s : State) : State :=
  match body with
  | [] => s.emit (connEvent .fwBodyEmpty i [])
  | b :: _ => { s with fw := fwOfByte b }

/-- SYSEX_FWFLAGS (R215). -/
def execSysexFwflags (_channel : Byte) (body : List Byte) (s : State) : Result :=
  dispatchStart (applyFwFlags body) s

/-- SYSEX_EXT_UNREC (R216): logged only. -/
def execSysexExtUnrec (_channel : Byte) (commandId : U16) (_body : List Byte) (s : State) : Result :=
  dispatchStart (fun i s => s.emit (connEvent .sysexUnknownExtension i [.num commandId.toNat])) s

/-- The body of R217, shared by its two forms: logged only. -/
def applyUnknownDevice (systemId commandId : U16) (i : Nat) (s : State) : State :=
  s.emit (connEvent .sysexUnknownDevice i [.num systemId.toNat, .num commandId.toNat])

/-- SYSEX_DEV_UNREC (R217). -/
def execSysexDevUnrec (_channel : Byte) (systemId commandId : U16) (_body : List Byte) (s : State) :
    Result :=
  dispatchStart (applyUnknownDevice systemId commandId) s

/-- SYSEX_SHORT (R114, R217): it arrives as `SysEx(0, 0, [])`. -/
def execSysexShort (_channel : Byte) (_payload : List Byte) (s : State) : Result :=
  dispatchStart (applyUnknownDevice 0 0) s

/-- UNKNOWN (R218): logged only, the connection stays open. -/
def execUnknown (_channel : Byte) (raw : Byte) (_payload : List Byte) (s : State) : Result :=
  dispatchStart (fun i s => s.emit (connEvent .unknownCommand i [.num raw.toNat])) s

end Sys2Proof.Machine
end

