-- ==== Sys2Proof/Machine/Dispatch.lean ====
section
/-! DEFINITION. The meaning of every instruction of the opcode table, one arm each. -/

namespace Sys2Proof.Machine

open Sys2Proof

def exec (i : Instr) (s : State) : Host.Outcome State Fault Refusal :=
  match i with
  | .setpix channel pixels trailing => Sys2Proof.Machine.execSetpix channel pixels trailing s
  | .setpixNoop channel payload => Sys2Proof.Machine.execSetpixNoop channel payload s
  | .sysexShort channel payload => Sys2Proof.Machine.execSysexShort channel payload s
  | .sysexCc channel body => Sys2Proof.Machine.execSysexCc channel body s
  | .sysexFwflags channel body => Sys2Proof.Machine.execSysexFwflags channel body s
  | .sysexExtUnrec channel commandId body => Sys2Proof.Machine.execSysexExtUnrec channel commandId body s
  | .sysexDevUnrec channel systemId commandId body => Sys2Proof.Machine.execSysexDevUnrec channel systemId commandId body s
  | .unknown channel raw payload => Sys2Proof.Machine.execUnknown channel raw payload s
  | .ctrlStart => Sys2Proof.Machine.execCtrlStart s
  | .ctrlStop => Sys2Proof.Machine.execCtrlStop s
  | .ctrlStandbyOn => Sys2Proof.Machine.execCtrlStandbyOn s
  | .ctrlStandbyOff => Sys2Proof.Machine.execCtrlStandbyOff s
  | .ctrlIllegal code => Sys2Proof.Machine.execCtrlIllegal code s

end Sys2Proof.Machine
end

