-- ==== Sys2Proof/Machine/Framer.lean ====
section
/-! DEFINITION. The connection framer (42_framer_control.md R170 to R180): each function is the step of
one host event on connection `i`; it reads and writes that record only, and appends events. -/

namespace Sys2Proof.Machine

open Sys2Proof

/-- CONN_OPEN (R170) on a free record. -/
def Conn.opened (c : Conn) : Conn :=
  { c with fsm := .hdr, hcount := 0, pcount := 0, closing := false }

/-- PayloadComplete (R174): decode the header and `pb[0..len-1]` into the latch. -/
def payloadComplete (c : Conn) : Except Fault Conn :=
  match c.payload with
  | some payload => .ok { c with cmd := some (decodePayload c.hb payload), fsm := .disp }
  | none => .error .payloadUnwritten

/-- HeaderComplete (R172). -/
def headerComplete (c : Conn) : Except Fault Conn :=
  let c := { c with len := c.hb.length, pcount := 0 }
  if c.len = 0 then payloadComplete c else .ok { c with fsm := .pay }

/-- RX_BYTE in HDR (R171). -/
def rxHeaderByte (b : Byte) (c : Conn) : Except Fault Conn :=
  let c := { c with hb := setHeaderByte c.hb c.hcount b, hcount := c.hcount + 1 }
  if c.hcount = 4 then headerComplete c else .ok c

/-- RX_BYTE in PAY (R173). The buffer has offsets 0..65534 only. -/
def rxPayloadByte (b : Byte) (c : Conn) : Except Fault Conn :=
  if c.pcount < Config.payloadSize then
    let c := { c with pb := c.pb.write c.pcount b, pcount := c.pcount + 1 }
    if c.pcount = c.len.toNat then payloadComplete c else .ok c
  else .error .payloadOffset

/-- RX_BYTE on a record; in CLOSED and DISP it is not enabled (R175) and nothing is read. -/
def rxByteConn (b : Byte) (c : Conn) : Except Fault Conn :=
  match c.fsm with
  | .hdr => rxHeaderByte b c
  | .pay => rxPayloadByte b c
  | .closed => .ok c
  | .disp => .ok c

/-- RX_BYTE(i, b) (R171, R173). -/
def rxByte (i : Nat) (b : Byte) (s : State) : Result :=
  match s.conns[i]? with
  | none => .next s
  | some c =>
    match rxByteConn b c with
    | .ok c' => .next (s.modifyConn i fun _ => c')
    | .error f => .fault f

/-- CONN_OPEN(i) (R170). -/
def connOpen (i : Nat) (s : State) : State := s.modifyConn i Conn.opened

/-- The event of RX_EOF on a record: clean at a frame boundary (R176), else the FramingError of a
truncated header (R177) or payload (R178). In CLOSED and DISP it is not enabled (R175). -/
def eofEvent (i : Nat) (c : Conn) : Option EventRec :=
  match c.fsm with
  | .hdr =>
    if c.hcount = 0 then some (connEvent .peerClosed i [])
    else some (connEvent .framingTruncHeader i [.num c.hcount])
  | .pay => some (connEvent .framingTruncPayload i [.num c.len.toNat, .num c.pcount])
  | .closed => none
  | .disp => none

/-- RX_EOF(i) (R176, R177, R178): report and close. -/
def rxEof (i : Nat) (s : State) : State :=
  match s.conns[i]? with
  | none => s
  | some c =>
    match eofEvent i c with
    | some e => (s.emit e).modifyConn i Conn.close
    | none => s

/-- RX_TIMEOUT(i) (R179): report and close; a partial frame is discarded. -/
def rxTimeout (i : Nat) (s : State) : State :=
  match s.conns[i]? with
  | none => s
  | some c =>
    if c.fsm = .hdr ∨ c.fsm = .pay then
      (s.emit (connEvent .readTimeout i [.num c.hcount, .num c.pcount])).modifyConn i Conn.close
    else s

end Sys2Proof.Machine
end

