-- ==== Sys2Proof/Machine/Agents.lean ====
section
/-! DEFINITION. The agents' moves: when each is enabled (60_exceptions.md R249, 42_framer_control.md,
43_dispatcher.md R210), what each does, and which of the offered moves is taken next (log 1). -/

namespace Sys2Proof.Machine

open Sys2Proof

/-- Whether connection `i` can take its dispatch step: in DISP, and the lock is free (R211) or held by
standby while the command is a colour correction (R219). -/
def dispatchEnabled (i : Nat) (s : State) : Bool :=
  match s.conns[i]? with
  | none => false
  | some c =>
    decide (c.fsm = .disp) &&
      (match c.cmd with
        | none => false
        | some ins =>
          decide (s.lock = .free) || (decide (s.lock = .standby) && isColourCorrection ins))

/-- When each move is enabled. -/
def enabled (s : State) : Move → Bool
  | .connOpen i => decide (s.run = .running) && s.connIn i .closed
  | .rxByte i _ => s.connIn i .hdr || s.connIn i .pay
  | .rxEof i => s.connIn i .hdr || s.connIn i .pay
  | .rxTimeout i => s.connIn i .hdr || s.connIn i .pay
  | .standbyWaitExpired => s.stbyReq
  | .ctrl _ _ => !s.stbyReq
  | .consAck => decide (s.out ≠ .none)
  | .reset => true
  | .dispatch i => dispatchEnabled i s
  | .grant => s.stbyReq && decide (s.lock = .free)

/-- Standby grant (R185). -/
def standbyGrant (s : State) : State :=
  (({ s with stbyReq := false }).setLock .standby).respond .ok

/-- STANDBY_WAIT_EXPIRED (R186). -/
def standbyWaitExpired (s : State) : State :=
  (({ s with stbyReq := false }).emit (portEvent .lockTimeout [])).respond .lockTimeout

/-- CONS_ACK (R221): the slot is emptied and the dispatch that holds the lock ends. -/
def consAck (s : State) : Result :=
  match s.lock with
  | .conn i => .next (dispatchEnd i (s.present .none))
  | .free => .fault .ackWithoutDispatch
  | .standby => .fault .ackWithoutDispatch

/-- Reset (R270): every piece of state to its reset value; the instance's parameters and N_CONN are
fixed for its life (R271), and what is offered to the block is the host's (log 21). -/
def resetMove (s : State) : State := State.resetWith s.cfg s.conns.length s.sched

/-- Serve connection `i`: run the instruction of its latch. -/
def serve (i : Nat) (s : State) : Result :=
  match s.conns[i]? with
  | none => .next s
  | some c =>
    match c.cmd with
    | none => .next s
    | some ins => exec ins { s with cur := i }

/-- Carry out a control operation: decode its code and run it, with the host's bind answer at hand. -/
def controlMove (code : Byte) (bindOk : Bool) (s : State) : Result :=
  exec (decodeCtrl code) { s with bindOk := bindOk }

/-- What an enabled move does. -/
def act (m : Move) (s : State) : Result :=
  match m with
  | .connOpen i => .next (connOpen i s)
  | .rxByte i b => rxByte i b s
  | .rxEof i => .next (rxEof i s)
  | .rxTimeout i => .next (rxTimeout i s)
  | .standbyWaitExpired => .next (standbyWaitExpired s)
  | .ctrl code bindOk => controlMove code bindOk s
  | .consAck => consAck s
  | .reset => .next (resetMove s)
  | .dispatch i => serve i s
  | .grant => .next (standbyGrant s)

/-- The first move of the list that is enabled, and the list without it: "an event that is not enabled
is not delivered; the host holds it" (R249). -/
def takeFirst (ready : Move → Bool) : List Move → Option (Move × List Move)
  | [] => none
  | m :: rest =>
    if ready m then some (m, rest)
    else
      match takeFirst ready rest with
      | some (m', rest') => some (m', m :: rest')
      | none => none

/-- Connection record 0 holding the whole frame `h`, `payload`, decoded and waiting in DISP, as the
framer leaves it (R174). -/
def frameInDisp (c : Conn) (h : HeaderBytes) (payload : List Byte) : Conn :=
  { c with
    fsm := .disp
    hcount := 4
    hb := h
    len := h.length
    pb := (List.range payload.length).zip payload
    pcount := h.length.toNat
    cmd := some (decodePayload h payload) }

/-- The records with the frame in record 0, made if there is none. -/
def withFrame (conns : List Conn) (h : HeaderBytes) (payload : List Byte) : List Conn :=
  match conns with
  | [] => [frameInDisp Conn.reset h payload]
  | c :: rest => frameInDisp c h payload :: rest

/-- The state in which the very next step runs the instruction whose bits are `w` (log 2): a frame
stands complete in record 0 with the lock free, a control code is offered by the controller. -/
def placeTableWord (s : State) (nbits w : Nat) : State :=
  if nbits ≤ 8 then
    { s with
      stbyReq := false
      sched := .ctrl (BitVec.ofNat 8 (w % 2 ^ nbits)) true :: s.sched }
  else
    let h := tableHeader nbits w
    { s with
      conns := withFrame s.conns h (tablePayload nbits w h.length.toNat)
      lock := .free
      sched := .dispatch 0 :: s.sched }

end Sys2Proof.Machine
end

