-- ==== Sys2Proof/Machine/Step.lean ====
section
/-! DEFINITION. One step: one enabled move of one agent, taken whole (00_scope.md R9, 60_exceptions.md
R246); when no offered move is enabled every agent waits. -/

namespace Sys2Proof.Machine

open Sys2Proof

/-- One atomic step. -/
def step (s : State) : Host.Outcome State Fault Refusal :=
  match takeFirst (enabled s) s.sched with
  | some (m, rest) => act m { s with sched := rest }
  | none => .next s

/-- `s` with the instruction of the opcode-table bits `w` placed where the next step fetches it. -/
def State.withFetchWord (s : State) (nbits w : Nat) : State := placeTableWord s nbits w

end Sys2Proof.Machine
end

