-- ==== Sys2Proof/Safety.lean ====
section
/-! DEFINITION. What counts as a safe run, and the terms the statements use: the invariant of the block
(10_state.md R22 to R34), the legal parameters (R31), the real number a binary64 value denotes and the
real LUT formula (00_scope.md R8, 41_color_corrector.md R140), and the states the rules describe. -/

namespace Sys2Proof.Machine

open Sys2Proof

/-- A step from `s` is neither a fault nor a refusal (R9). -/
def Safe (s : State) : Prop := ∃ t, step s = .next t

/-- GAMMA "is finite and > 0" (R31). -/
def gammaLegal (g : B64) : Prop := f64IsFinite g = true ∧ f64IsNonPos g = false

/-- "every WP[k] is finite" (R31). -/
def whitepointsLegal (p : CcParams) : Prop := ∀ k : Fin 3, f64IsFinite (whitepoint p k) = true

/-- What R22 to R27 say of the record in slot `i` between steps. -/
structure ConnInv (lock : Lock) (i : Nat) (c : Conn) : Prop where
  /-- The payload buffer keeps its canonical form. -/
  buffer : c.pb.wf
  /-- `closing` is set only on the connection that holds the lock (R27). -/
  closing : c.closing = true → lock = .conn i
  /-- Outside DISP the latch is empty (R26); the counters start at 0 (R23, R25). -/
  closedForm : c.fsm = .closed → c.hcount = 0 ∧ c.pcount = 0 ∧ c.cmd = none
  /-- "so `conn[i].hcount ≤ 3`" (R171). -/
  hdrForm : c.fsm = .hdr → c.hcount ≤ 3 ∧ c.pcount = 0 ∧ c.cmd = none
  /-- "so `conn[i].pcount < conn[i].len`" (R173); the bytes received so far stand in the buffer (R25). -/
  payForm : c.fsm = .pay → c.hcount = 4 ∧ c.len = c.hb.length ∧ c.pcount < c.len.toNat ∧
    c.cmd = none ∧ ∀ a, a < c.pcount → (c.pb.read a).isSome = true
  /-- The whole payload has arrived and the latch holds what it decodes to (R174). -/
  dispForm : c.fsm = .disp → c.hcount = 4 ∧ c.len = c.hb.length ∧ c.pcount = c.len.toNat ∧
    ∃ payload, c.payload = some payload ∧ c.cmd = some (decodePayload c.hb payload)

/-- The invariant of the block between steps. -/
structure BlockInv (s : State) : Prop where
  /-- `N_CONN ≥ 1` (R5). -/
  slots : 1 ≤ s.conns.length
  conns : ∀ i c, s.conns[i]? = some c → ConnInv s.lock i c
  /-- `CONN(i)`: connection `i`'s dispatch is in progress, its output not acknowledged (R29, R221). -/
  lockHeld : ∀ i, s.lock = .conn i → s.connIn i .disp = true ∧ s.out ≠ .none
  /-- The slot is non-NONE only while a dispatch holds the lock (R34). -/
  outHeld : s.out ≠ .none → ∃ i, s.lock = .conn i
  /-- A request waits only while standby is not engaged (R30, R184). -/
  request : s.stbyReq = true → s.lock ≠ .standby
  /-- The parameters are legal (R31). -/
  gamma : gammaLegal s.params.gamma
  whitepoints : whitepointsLegal s.params
  /-- The table is the table of the parameters (R32). -/
  table : s.lut = lutTable s.cfg.roundTie s.params
  /-- No connection is open before START or after a failed bind (R21, R242). -/
  notServing : s.run = .idle ∨ s.run = .failed → ∀ c ∈ s.conns, c.fsm = .closed
  /-- After STOP only a connection finishing its dispatch is open (R183). -/
  stopped : s.run = .terminated → ∀ c ∈ s.conns, c.fsm = .closed ∨ c.closing = true

/-- The real number a finite binary64 value denotes: `(-1)^sign * significand * 2^(e - 1075)`. -/
noncomputable def realOf (v : B64) : ℝ :=
  (if f64Sign v then -1 else 1) * (f64Mant v : ℝ) * (2 : ℝ) ^ ((max 1 (f64Exp v) : ℤ) - 1075)

/-- `round_T(v)` (R8): the nearest integer, a tie to the even neighbour or to the neighbour of larger
magnitude. -/
noncomputable def roundT (tie : RoundTie) (v : ℝ) : ℤ :=
  if v - ⌊v⌋ < 1 / 2 then ⌊v⌋
  else if 1 / 2 < v - ⌊v⌋ then ⌊v⌋ + 1
  else
    match tie with
    | .halfEven => if ⌊v⌋ % 2 = 0 then ⌊v⌋ else ⌊v⌋ + 1
    | .halfAway => if 0 ≤ v then ⌊v⌋ + 1 else ⌊v⌋

/-- `clamp(0, 255, round_T(i^g * w))` in real arithmetic (R8, R140). -/
noncomputable def realLutEntry (tie : RoundTie) (i : ℕ) (g w : ℝ) : ℤ :=
  min 255 (max 0 (roundT tie ((i : ℝ) ^ g * w)))

/-- Connection `cur` waits in DISP, nothing holds the lock, nothing is pending at the consumer: the
situation of a DISPATCH_START (R211). -/
structure Ready (s : State) (c : Conn) : Prop where
  record : s.conns[s.cur]? = some c
  inDisp : c.fsm = .disp
  lockFree : s.lock = .free
  noOutput : s.out = .none
  notClosing : c.closing = false

/-- Connection `i`'s record replaced. -/
def State.putConn (s : State) (i : Nat) (c : Conn) : State := { s with conns := s.conns.set i c }

/-- A record back at a frame boundary (R219, R222). -/
def Conn.atBoundary (c : Conn) : Conn := { c with fsm := .hdr, hcount := 0, pcount := 0, cmd := none }

/-- A record closed, its partial frame discarded. -/
def Conn.shut (c : Conn) : Conn := { c with fsm := .closed, hcount := 0, pcount := 0, cmd := none }

/-- The state after connection `cur` has been served and has reported the events `es`. -/
def State.servedWith (s : State) (c : Conn) (es : List EventRec) : State :=
  { s.putConn s.cur c.atBoundary with events := s.events ++ es }

end Sys2Proof.Machine
end

