-- ==== Sys2Proof/Certificates/Slice0/Obligations.lean ====
section
/-! DEFINITION. The statements for the provers. Each docstring names the rules it formalises; where a
statement rests on one of the spec's own decisions (92_eei_decisions.md) or on a log entry, it says so. -/

open Sys2Proof Sys2Proof.Machine

/-! ## Encoding and decoding -/

/-- Every well-formed frame instruction, with every operand at every value its encoding admits, is read
back from its encoding, and the bytes after the frame are left over (R80, R84, R85, R88, R90). -/
def Obligations.DecodeOfEncodedFrameIsTheInstruction : Prop :=
  ∀ (i : Instr) (rest : List Byte), i.port = .wire → i.wf = true →
    decodeFrame (encode i ++ rest) = .ok (i, rest)

/-- A frame has one reading: what the stream decoder accepts is well formed, is a frame, and encodes
back to the bytes it was read from, none dropped (R80, R88, R90). -/
def Obligations.EncodeOfDecodedFrameIsTheBytes : Prop :=
  ∀ (bytes rest : List Byte) (i : Instr), decodeFrame bytes = .ok (i, rest) →
    i.port = .wire ∧ i.wf = true ∧ encode i ++ rest = bytes

/-- The 256 control codes and the well-formed control operations stand for each other (R91; the codes
are the spec's decision D19). -/
def Obligations.ControlCodesRoundTrip : Prop :=
  (∀ code : Byte, (decodeCtrl code).port = .control ∧ (decodeCtrl code).wf = true ∧
    encode (decodeCtrl code) = [code]) ∧
  (∀ i : Instr, i.port = .control → i.wf = true → ∃ code, encode i = [code] ∧ decodeCtrl code = i)

/-- Words written out from the encodings of R80, R85, R91 decode to the instructions they stand for
(the words of 95_test_vectors.md W1, T-DEC-2, T-DEC-8, T-DEC-10, T-DEC-12, T-DEC-13, T-DEC-18). The
control codes of the last two words are the spec's own decision D19 (R91). -/
def Obligations.SpecWordsDecode : Prop :=
  decodeFrame [0x00, 0x00, 0x00, 0x06, 10, 20, 30, 40, 50, 60] =
    .ok (.setpix 0 [⟨10, 20, 30⟩, ⟨40, 50, 60⟩] [], []) ∧
  decodeFrame [0x00, 0x00, 0x00, 0x02, 0xAA, 0xBB] = .ok (.setpixNoop 0 [0xAA, 0xBB], []) ∧
  decodeFrame [0x00, 0xFF, 0x00, 0x03, 0x00, 0x01, 0x00] = .ok (.sysexShort 0 [0x00, 0x01, 0x00], []) ∧
  decodeFrame [0x00, 0xFF, 0x00, 0x05, 0x00, 0x01, 0x00, 0x02, 0x05] = .ok (.sysexFwflags 0 [0x05], []) ∧
  decodeFrame [0x00, 0xFF, 0x00, 0x06, 0x00, 0x01, 0xFF, 0xFF, 0x09, 0x09] =
    .ok (.sysexExtUnrec 0 0xFFFF [0x09, 0x09], []) ∧
  decodeFrame [0x00, 0xFF, 0x00, 0x04, 0x01, 0x00, 0x00, 0x01] = .ok (.sysexDevUnrec 0 256 1 [], []) ∧
  decodeFrame [0x09, 0x80, 0x00, 0x03, 0x01, 0x00, 0x01] = .ok (.unknown 9 0x80 [0x01, 0x00, 0x01], []) ∧
  decodeCtrl 0x03 = .ctrlStandbyOn ∧ decodeCtrl 0x05 = .ctrlIllegal 0x05

/-- R111 and R112: a pixel frame of length at least 3 is SetPixels of its channel and of length div 3
pixels, pixel `j` being payload bytes 3j, 3j+1, 3j+2; a shorter one is NoOp. -/
def Obligations.PixelFrameDecodesToItsTriples : Prop :=
  ∀ (h : HeaderBytes) (p : List Byte), h.command = 0x00 → p.length = h.length.toNat →
    (3 ≤ h.length.toNat → ∃ px : List Pixel,
      (decodePayload h p).command = some (.setPixels h.channel px) ∧
      px.length = h.length.toNat / 3 ∧
      ∀ j : Nat, j < h.length.toNat / 3 → ∃ r g b : Byte, px[j]? = some ⟨r, g, b⟩ ∧
        p[3 * j]? = some r ∧ p[3 * j + 1]? = some g ∧ p[3 * j + 2]? = some b) ∧
    (h.length.toNat ≤ 2 → (decodePayload h p).command = some .noOp)

/-- R113 and R114: a sysEx of length above 3 is SysEx of its two big-endian words and the bytes after them,
whatever they are; a shorter one is SysEx(0, 0, []). The channel byte is ignored. -/
def Obligations.SysExFrameDecodesToItsSubHeader : Prop :=
  ∀ (h : HeaderBytes) (p : List Byte), h.command = 0xFF → p.length = h.length.toNat →
    (3 < h.length.toNat → ∃ p0 p1 p2 p3 : Byte,
      p = [p0, p1, p2, p3] ++ p.drop 4 ∧
      (decodePayload h p).command =
        some (.sysEx (BitVec.ofNat 16 (256 * p0.toNat + p1.toNat))
          (BitVec.ofNat 16 (256 * p2.toNat + p3.toNat)) (p.drop 4))) ∧
    (h.length.toNat ≤ 3 → (decodePayload h p).command = some (.sysEx 0 0 []))

/-- R119: each command byte other than 0x00 and 0xFF gives Unknown of that byte, whatever the
length and the payload. -/
def Obligations.OtherCommandByteDecodesToUnknown : Prop :=
  ∀ (h : HeaderBytes) (p : List Byte), h.command ≠ 0x00 → h.command ≠ 0xFF →
    decodePayload h p = .unknown h.channel h.command p ∧
    (decodePayload h p).command = some (.unknown h.command)

/-- The decode map of R88 row by row, on the header word and the sub-header word (commandId 0 with
systemId 1 is sorted by the spec's decision D17). -/
def Obligations.DecodeMapSelectsOneForm : Prop :=
  ∀ (h : HeaderBytes) (p : List Byte), p.length = h.length.toNat →
    match decodePayload h p with
    | .setpix ch px tr => h.command = 0x00 ∧ 3 ≤ h.length.toNat ∧ ch = h.channel ∧
        px.flatMap pixelBytes ++ tr = p ∧ tr.length = h.length.toNat % 3
    | .setpixNoop ch q => h.command = 0x00 ∧ h.length.toNat ≤ 2 ∧ ch = h.channel ∧ q = p
    | .sysexShort ch q => h.command = 0xFF ∧ h.length.toNat ≤ 3 ∧ ch = h.channel ∧ q = p
    | .sysexCc ch body => h.command = 0xFF ∧ ch = h.channel ∧ p = [0, 1, 0, 1] ++ body
    | .sysexFwflags ch body => h.command = 0xFF ∧ ch = h.channel ∧ p = [0, 1, 0, 2] ++ body
    | .sysexExtUnrec ch c body => h.command = 0xFF ∧ ch = h.channel ∧ c ≠ 1 ∧ c ≠ 2 ∧
        p = [0, 1] ++ u16Bytes c ++ body
    | .sysexDevUnrec ch s c body => h.command = 0xFF ∧ ch = h.channel ∧ s ≠ 1 ∧
        p = u16Bytes s ++ u16Bytes c ++ body
    | .unknown ch raw q => h.command ≠ 0x00 ∧ h.command ≠ 0xFF ∧ ch = h.channel ∧ raw = h.command ∧ q = p
    | .ctrlStart => False
    | .ctrlStop => False
    | .ctrlStandbyOn => False
    | .ctrlStandbyOff => False
    | .ctrlIllegal _ => False

/-! ## The step -/

/-- A step takes the first offered move that is enabled and leaves the moves before it waiting (R9,
R246, R249; that the order is a list held in State is the model's choice, log 1). -/
def Obligations.StepTakesFirstEnabledMove : Prop :=
  (∀ (s : State) (pre post : List Move) (m : Move), s.sched = pre ++ m :: post →
    (∀ m' ∈ pre, enabled s m' = false) → enabled s m = true →
    step s = act m { s with sched := pre ++ post }) ∧
  (∀ s : State, (∀ m ∈ s.sched, enabled s m = false) → step s = .next s)

/-- A step runs the decoded instruction: when the bytes a connection has received decode to a frame
instruction, its dispatch step is exec of that instruction, with `cur` naming the connection; a control
operation's step is exec of the instruction its code stands for (R174, R211, R91; log 1, log 19). -/
def Obligations.StepRunsDecodedInstruction : Prop :=
  (∀ (s : State) (rest : List Move) (j : Nat) (c : Conn) (p : List Byte) (i : Instr),
    s.sched = .dispatch j :: rest → s.conns[j]? = some c → c.fsm = .disp →
    c.payload = some p → c.cmd = some (decodePayload c.hb p) →
    decodeFrame ([c.hb.b0, c.hb.b1, c.hb.b2, c.hb.b3] ++ p) = .ok (i, []) →
    s.lock = .free ∨ (s.lock = .standby ∧ isColourCorrection i = true) →
    step s = exec i { s with sched := rest, cur := j }) ∧
  (∀ (s : State) (rest : List Move) (code : Byte) (b : Bool),
    s.sched = .ctrl code b :: rest → s.stbyReq = false →
    step s = exec (decodeCtrl code) { s with sched := rest, bindOk := b })

/-! ## The framer -/

/-- R170 (decisions D2, D30): CONN_OPEN is enabled when the block runs and the slot is CLOSED, and puts
the record at an empty header; in any other case it is not enabled. -/
def Obligations.ConnOpenStartsAtEmptyHeader : Prop :=
  (∀ (s : State) (rest : List Move) (i : Nat) (c : Conn), s.sched = .connOpen i :: rest →
    s.run = .running → s.conns[i]? = some c → c.fsm = .closed →
    step s = .next { s.putConn i { c with fsm := .hdr, hcount := 0, pcount := 0, closing := false } with
      sched := rest }) ∧
  (∀ (s : State) (i : Nat), s.run ≠ .running → enabled s (.connOpen i) = false) ∧
  (∀ (s : State) (i : Nat) (c : Conn), s.conns[i]? = some c → c.fsm ≠ .closed →
    enabled s (.connOpen i) = false)

/-- R171 and R172: a byte in HDR goes to header position `hcount`; the fourth completes the header:
`len` is length_hi*256 + length_lo, `pcount` 0, and the framer goes to PAY, or when `len` is 0 it
decodes the empty payload in the same step (R174). -/
def Obligations.HeaderByteReception : Prop :=
  ∀ (s : State) (rest : List Move) (i : Nat) (b : Byte) (c : Conn), s.sched = .rxByte i b :: rest →
    s.conns[i]? = some c → c.fsm = .hdr →
    (c.hcount = 0 → step s = .next { s.putConn i { c with
      hb := { c.hb with b0 := b }, hcount := 1 } with sched := rest }) ∧
    (c.hcount = 1 → step s = .next { s.putConn i { c with
      hb := { c.hb with b1 := b }, hcount := 2 } with sched := rest }) ∧
    (c.hcount = 2 → step s = .next { s.putConn i { c with
      hb := { c.hb with b2 := b }, hcount := 3 } with sched := rest }) ∧
    (c.hcount = 3 → ∃ len : U16, len.toNat = 256 * c.hb.b2.toNat + b.toNat ∧
      (len ≠ 0 → step s = .next { s.putConn i { c with
        hb := { c.hb with b3 := b }, hcount := 4, len := len, pcount := 0, fsm := .pay } with
        sched := rest }) ∧
      (len = 0 → step s = .next { s.putConn i { c with
        hb := { c.hb with b3 := b }, hcount := 4, len := len, pcount := 0, fsm := .disp,
        cmd := some (decodePayload { c.hb with b3 := b } []) } with sched := rest }))

/-- R173 and R174: a byte in PAY is written at offset `pcount` of that connection's buffer and nowhere
else; the byte that completes the payload decodes it into the latch and moves to DISP. -/
def Obligations.PayloadByteReception : Prop :=
  ∀ (s : State) (rest : List Move) (i : Nat) (b : Byte) (c : Conn), s.sched = .rxByte i b :: rest →
    s.conns[i]? = some c → c.fsm = .pay → c.pcount < c.len.toNat →
    ∃ pb : Memory, pb.read c.pcount = some b ∧ (∀ a, a ≠ c.pcount → pb.read a = c.pb.read a) ∧
      (c.pcount + 1 < c.len.toNat → step s = .next { s.putConn i { c with
        pb := pb, pcount := c.pcount + 1 } with sched := rest }) ∧
      (c.pcount + 1 = c.len.toNat → ∀ bytes : List Byte, bytes.length = c.pcount →
        (∀ a, a < c.pcount → c.pb.read a = bytes[a]?) →
        step s = .next { s.putConn i { c with
          pb := pb, pcount := c.pcount + 1, fsm := .disp,
          cmd := some (decodePayload c.hb (bytes ++ [b])) } with sched := rest })

/-- The framer assembles every frame: from an empty header, the bytes of any well-formed frame
instruction, delivered one RX_BYTE a step, leave the connection in DISP with exactly that instruction
in its latch and its payload in the buffer, and nothing else of the block changed (R171 to R174, R90). -/
def Obligations.FramerAssemblesEveryFrame : Prop :=
  ∀ (s : State) (rest : List Move) (j : Nat) (c : Conn) (i : Instr),
    i.port = .wire → i.wf = true → s.conns[j]? = some c → c.fsm = .hdr → c.hcount = 0 →
    s.sched = (encode i).map (Move.rxByte j) ++ rest →
    ∃ c' : Conn, Host.Core.run Sys2Proof.core (encode i).length s =
        .next { s.putConn j c' with sched := rest } ∧
      c'.fsm = .disp ∧ c'.cmd = some i ∧ c'.hcount = 4 ∧ c'.pcount = c'.len.toNat ∧
      c'.closing = c.closing ∧ c'.payload = some ((encode i).drop 4)

/-- R176: end-of-stream at a frame boundary reports PEER_CLOSED of that connection and closes it. In HDR
at `hcount` 0 the invariant gives the two facts about `pcount` and the latch. -/
def Obligations.EndOfStreamAtBoundaryIsPeerClosed : Prop :=
  ∀ (s : State) (rest : List Move) (i : Nat) (c : Conn), s.sched = .rxEof i :: rest →
    s.conns[i]? = some c → c.fsm = .hdr → c.hcount = 0 → c.pcount = 0 → c.cmd = none →
    step s = .next { s.putConn i { c with fsm := .closed } with
      sched := rest, events := s.events ++ [⟨.peerClosed, some (BitVec.ofNat 8 i), []⟩] }

/-- R177 and R178 (decision D8): end-of-stream inside a header or a payload reports the truncation with
its counts, closes that connection, and decodes nothing (its latch is empty: log 12). -/
def Obligations.EndOfStreamInsideFrameIsFramingError : Prop :=
  ∀ (s : State) (rest : List Move) (i : Nat) (c : Conn), s.sched = .rxEof i :: rest →
    s.conns[i]? = some c →
    (c.fsm = .hdr → 1 ≤ c.hcount → step s = .next { s.putConn i c.shut with
      sched := rest
      events := s.events ++ [⟨.framingTruncHeader, some (BitVec.ofNat 8 i), [.num c.hcount]⟩] }) ∧
    (c.fsm = .pay → step s = .next { s.putConn i c.shut with
      sched := rest
      events := s.events ++
        [⟨.framingTruncPayload, some (BitVec.ofNat 8 i), [.num c.len.toNat, .num c.pcount]⟩] })

/-- R179 (decision D14): a read timeout in HDR or PAY reports the counts and closes that connection (its
latch is empty: log 12). -/
def Obligations.ReadTimeoutClosesConnection : Prop :=
  ∀ (s : State) (rest : List Move) (i : Nat) (c : Conn), s.sched = .rxTimeout i :: rest →
    s.conns[i]? = some c → c.fsm = .hdr ∨ c.fsm = .pay →
    step s = .next { s.putConn i c.shut with
      sched := rest
      events := s.events ++
        [⟨.readTimeout, some (BitVec.ofNat 8 i), [.num c.hcount, .num c.pcount]⟩] }

/-- R175 (decision D14): in DISP and in CLOSED no byte, end-of-stream or timeout of the connection is
enabled; offered alone they are held and nothing changes. -/
def Obligations.FramerReadsNothingInDispAndClosed : Prop :=
  ∀ (s : State) (i : Nat) (c : Conn) (b : Byte), s.conns[i]? = some c →
    c.fsm = .disp ∨ c.fsm = .closed →
    enabled s (.rxByte i b) = false ∧ enabled s (.rxEof i) = false ∧ enabled s (.rxTimeout i) = false ∧
    (s.sched = [.rxByte i b] ∨ s.sched = [.rxEof i] ∨ s.sched = [.rxTimeout i] → step s = .next s)

/-- R180: a framer step of connection `i` changes no other connection and no shared register but the
event output, to which it only appends; and what it does to its own record depends on that record
alone. -/
def Obligations.FramerStepsAreIndependent : Prop :=
  ∀ (s t : State) (i : Nat) (b : Byte) (m : Move),
    m = .connOpen i ∨ m = .rxByte i b ∨ m = .rxEof i ∨ m = .rxTimeout i → act m s = .next t →
    (∀ j, j ≠ i → t.conns[j]? = s.conns[j]?) ∧ t.conns.length = s.conns.length ∧
    t.run = s.run ∧ t.lock = s.lock ∧ t.stbyReq = s.stbyReq ∧ t.params = s.params ∧ t.lut = s.lut ∧
    t.fw = s.fw ∧ t.out = s.out ∧ t.resps = s.resps ∧ t.cfg = s.cfg ∧
    (∃ es, t.events = s.events ++ es) ∧
    ∀ s' : State, s'.conns[i]? = s.conns[i]? →
      ∃ t', act m s' = .next t' ∧ t'.conns[i]? = t.conns[i]? ∧
        ∀ es, t.events = s.events ++ es → t'.events = s'.events ++ es

/-! ## Dispatch of the commands -/

/-- R212, R145, R220, R221 (decisions D22, D24): SETPIX with a consumer attached presents the pixels
mapped through the three tables and keeps the lock; with none it is served at once. Nothing else
changes, for every channel and whatever bytes trail. -/
def Obligations.SetpixPresentsCorrectedPixels : Prop :=
  ∀ (ch : Byte) (px : List Pixel) (tr : List Byte) (s : State) (c : Conn), Ready s c →
    (s.cfg.hasPixConsumer = true → exec (.setpix ch px tr) s = .next { s with
      lock := .conn s.cur
      out := .pix (px.map fun p => ⟨s.lut.entry 0 p.r, s.lut.entry 1 p.g, s.lut.entry 2 p.b⟩) }) ∧
    (s.cfg.hasPixConsumer = false → exec (.setpix ch px tr) s = .next (s.servedWith c []))

/-- R213 (decisions D10, D33): SETPIX_NOOP is served with no output and no event. -/
def Obligations.NoOpIsServedSilently : Prop :=
  ∀ (ch : Byte) (p : List Byte) (s : State) (c : Conn), Ready s c →
    exec (.setpixNoop ch p) s = .next (s.servedWith c [])

/-- R214, R142, R220 (decisions D6, D23, D24): a colour correction whose body parses to legal
parameters replaces the four registers and the whole table, and presents CC to an attached consumer. -/
def Obligations.ColourCorrectionReplacesParamsAndTable : Prop :=
  ∀ (ch : Byte) (body : List Byte) (p : CcParams) (s : State) (c : Conn), Ready s c →
    ccParse body = some p → gammaLegal p.gamma → whitepointsLegal p →
    (s.cfg.hasCcConsumer = true → exec (.sysexCc ch body) s = .next { s with
      lock := .conn s.cur, params := p, lut := lutTable s.cfg.roundTie p, out := .cc p }) ∧
    (s.cfg.hasCcConsumer = false → exec (.sysexCc ch body) s = .next
      { s.servedWith c [] with params := p, lut := lutTable s.cfg.roundTie p })

/-- R214, R142, R245 (decisions D6, D18): the whole effect of a colour correction on every body. One that
does not parse, or whose gamma is not finite or not positive, or one of whose whitepoint components is
not finite, is served with the one event of its first failing check and changes no parameter and no
table entry; any other replaces both. An event gives the slot as its low 8 bits (log 15) and its info in
the form of log 16. -/
def Obligations.ColourCorrectionReportsFirstError : Prop :=
  ∀ (ch : Byte) (body : List Byte) (s : State) (c : Conn), Ready s c →
    exec (.sysexCc ch body) s = .next (match ccParse body with
      | none => s.servedWith c [⟨.ccDecodeError, some (BitVec.ofNat 8 s.cur), []⟩]
      | some p =>
        if f64IsFinite p.gamma = false ∨ f64IsNonPos p.gamma = true then
          s.servedWith c [⟨.invalidGamma, some (BitVec.ofNat 8 s.cur), [.b64 p.gamma]⟩]
        else if f64IsFinite p.wp0 = false then
          s.servedWith c [⟨.invalidWhitepoint, some (BitVec.ofNat 8 s.cur), [.num 0]⟩]
        else if f64IsFinite p.wp1 = false then
          s.servedWith c [⟨.invalidWhitepoint, some (BitVec.ofNat 8 s.cur), [.num 1]⟩]
        else if f64IsFinite p.wp2 = false then
          s.servedWith c [⟨.invalidWhitepoint, some (BitVec.ofNat 8 s.cur), [.num 2]⟩]
        else if s.cfg.hasCcConsumer then
          { s with lock := .conn s.cur, params := p, lut := lutTable s.cfg.roundTie p, out := .cc p }
        else { s.servedWith c [] with params := p, lut := lutTable s.cfg.roundTie p })

/-- R219 (decisions D10, D29): a colour correction that meets engaged standby is parsed and dropped:
one event, the framer back at a header, and parameters, table, lock and output unchanged. The event
gives the slot as its low 8 bits (log 15). -/
def Obligations.ColourCorrectionInStandbyIsSuppressed : Prop :=
  ∀ (ch : Byte) (body : List Byte) (s : State) (c : Conn),
    s.conns[s.cur]? = some c → c.fsm = .disp → s.lock = .standby →
    (ccParse body = none → exec (.sysexCc ch body) s =
      .next (s.servedWith c [⟨.ccDecodeError, some (BitVec.ofNat 8 s.cur), []⟩])) ∧
    ((ccParse body).isSome = true → exec (.sysexCc ch body) s =
      .next (s.servedWith c [⟨.ccSuppressedStandby, some (BitVec.ofNat 8 s.cur), []⟩]))

/-- R215, R87 (decision D15): a firmware-flag sysEx assigns each of the four flags from its bit of the
first body byte, whatever bytes follow; an empty body changes no flag and reports FW_BODY_EMPTY,
the slot given as its low 8 bits (log 15). -/
def Obligations.FirmwareFlagsAreAssignedFromFirstByte : Prop :=
  ∀ (ch : Byte) (s : State) (c : Conn), Ready s c →
    (∀ (b : Byte) (more : List Byte), ∃ fw : BitVec 4,
      (∀ n, n < 4 → fw.getLsbD n = b.getLsbD n) ∧
      exec (.sysexFwflags ch (b :: more)) s = .next { s.servedWith c [] with fw := fw }) ∧
    exec (.sysexFwflags ch []) s =
      .next (s.servedWith c [⟨.fwBodyEmpty, some (BitVec.ofNat 8 s.cur), []⟩])

/-- R218: an unknown command reports UNKNOWN_COMMAND with its byte, changes no register, and its
connection goes on with the next header. -/
def Obligations.UnknownCommandIsLoggedOnly : Prop :=
  ∀ (ch raw : Byte) (p : List Byte) (s : State) (c : Conn), Ready s c →
    exec (.unknown ch raw p) s =
      .next (s.servedWith c [⟨.unknownCommand, some (BitVec.ofNat 8 s.cur), [.num raw.toNat]⟩])

/-- R216 and R217 (decision D17 for commandId 0; the short form arriving as 0, 0 is the spec's
inference from R114): unrecognised sysEx commands are logged only. The events give the slot as its low
8 bits (log 15) and their info in the form of log 16. -/
def Obligations.UnrecognisedSysExIsLoggedOnly : Prop :=
  ∀ (ch : Byte) (sid cid : U16) (body : List Byte) (s : State) (c : Conn), Ready s c →
    exec (.sysexExtUnrec ch cid body) s =
      .next (s.servedWith c [⟨.sysexUnknownExtension, some (BitVec.ofNat 8 s.cur), [.num cid.toNat]⟩]) ∧
    exec (.sysexDevUnrec ch sid cid body) s =
      .next (s.servedWith c
        [⟨.sysexUnknownDevice, some (BitVec.ofNat 8 s.cur), [.num sid.toNat, .num cid.toNat]⟩]) ∧
    exec (.sysexShort ch body) s =
      .next (s.servedWith c [⟨.sysexUnknownDevice, some (BitVec.ofNat 8 s.cur), [.num 0, .num 0]⟩])

/-- R210, R211, R219 (decision D10): while the lock is not free a command waits and nothing changes,
except a colour correction while standby is engaged; and it waits while its connection is not in DISP
(that waiting leaves the state as it is, log 18). -/
def Obligations.CommandsWaitForTheLock : Prop :=
  ∀ (i : Instr) (s : State), i.port = .wire →
    (s.lock ≠ .free → isColourCorrection i = false ∨ s.lock ≠ .standby → exec i s = .next s) ∧
    (s.connIn s.cur .disp = false → exec i s = .next s)

/-- The frame of the frame instructions: whatever a dispatch does, it writes no register of R20 but
those named here: the lock, the output slot, the events, the served connection's fsm, counters, latch
and closing bit; `params` and `LUT` only for a colour correction; `fw` only for firmware flags. No
instruction stores to a payload buffer: every byte of every buffer reads as before (R37, R223; R223 is
the spec's inference). -/
def Obligations.FrameInstructionsChangeOnlyTheirRegisters : Prop :=
  ∀ (i : Instr) (s t : State), i.port = .wire → exec i s = .next t →
    t.run = s.run ∧ t.stbyReq = s.stbyReq ∧ t.resps = s.resps ∧ t.cfg = s.cfg ∧ t.sched = s.sched ∧
    t.conns.length = s.conns.length ∧
    (∀ j, j ≠ s.cur → t.conns[j]? = s.conns[j]?) ∧
    (∀ (j : Nat) (c c' : Conn), s.conns[j]? = some c → t.conns[j]? = some c' →
      c'.hb = c.hb ∧ c'.len = c.len ∧ ∀ a, c'.pb.read a = c.pb.read a) ∧
    (isColourCorrection i = false → t.params = s.params ∧ t.lut = s.lut) ∧
    ((∀ ch body, i ≠ .sysexFwflags ch body) → t.fw = s.fw) ∧
    (∃ es, t.events = s.events ++ es)

/-- R221 and R222 (decisions D20, D24): CONS_ACK empties the slot, releases the lock and returns the
framer to a header; when STOP came during the dispatch it closes the connection and reports it, the slot
given as its low 8 bits (log 15) and the info in the form of log 16. -/
def Obligations.AcknowledgeEndsTheDispatch : Prop :=
  ∀ (s : State) (rest : List Move) (i : Nat) (c : Conn), s.sched = .consAck :: rest →
    s.lock = .conn i → s.out ≠ .none → s.conns[i]? = some c →
    (c.closing = false → step s = .next { s.putConn i c.atBoundary with
      lock := .free, out := .none, sched := rest }) ∧
    (c.closing = true → step s = .next { s.putConn i { c.shut with closing := false } with
      lock := .free, out := .none, sched := rest
      events := s.events ++
        [⟨.connAbortedStop, some (BitVec.ofNat 8 i), [.fsm .disp, .num 0, .num 0]⟩] })

/-! ## Control operations -/

/-- R181 (decision D21): START binds in IDLE and answers OK or BIND_ERROR by the host's draw; in any
other run state it answers BAD_STATE. Nothing else changes. -/
def Obligations.StartBindsOnlyFromIdle : Prop :=
  ∀ s : State, s.stbyReq = false →
    (s.run = .idle → s.bindOk = true → exec .ctrlStart s =
      .next { s with run := .running, resps := s.resps ++ [.ok] }) ∧
    (s.run = .idle → s.bindOk = false → exec .ctrlStart s =
      .next { s with
        run := .failed, resps := s.resps ++ [.bindError], events := s.events ++ [⟨.bindError, none, []⟩] }) ∧
    (s.run ≠ .idle → exec .ctrlStart s =
      .next { s with
        resps := s.resps ++ [.badState], events := s.events ++ [⟨.ctrlBadState, none, [.num 1]⟩] })

/-- R183 (decision D20): STOP ends the run state, marks the connection that holds the lock, closes
every other open connection with an event of its state, in slot order, and answers OK. That a record it
closes has its latch emptied is read from R26 (log 12); the events give the slot as its low 8 bits
(log 15) and their info in the form of log 16; the response stands in the trace of log 13. -/
def Obligations.StopClosesAllButTheLockHolder : Prop :=
  ∀ s : State, s.stbyReq = false → ∃ t, exec .ctrlStop s = .next t ∧
    t.run = (if s.run = .failed then .failed else .terminated) ∧
    t.resps = s.resps ++ [.ok] ∧ t.conns.length = s.conns.length ∧
    (∀ (i : Nat) (c : Conn), s.conns[i]? = some c → t.conns[i]? = some
      (if s.lock = .conn i then { c with closing := true }
       else if c.fsm = .closed then c else c.shut)) ∧
    t.events = s.events ++ (s.conns.zipIdx.filter fun x =>
        decide (s.lock ≠ .conn x.2) && decide (x.1.fsm ≠ .closed)).map (fun x =>
      ⟨.connAbortedStop, some (BitVec.ofNat 8 x.2), [.fsm x.1.fsm, .num x.1.hcount, .num x.1.pcount]⟩) ∧
    t.lock = s.lock ∧ t.stbyReq = s.stbyReq ∧ t.params = s.params ∧ t.lut = s.lut ∧ t.fw = s.fw ∧
    t.out = s.out ∧ t.cfg = s.cfg ∧ t.sched = s.sched

/-- R183 (decision D20): "Must be idempotent": a second STOP right after the first changes nothing but
the response given. -/
def Obligations.SecondStopChangesNothing : Prop :=
  ∀ s t : State, s.stbyReq = false → exec .ctrlStop s = .next t →
    exec .ctrlStop t = .next { t with resps := t.resps ++ [.ok] }

/-- R184 and R188 (decision D12): STANDBY_ON answers OK when standby is engaged already, engages it
when the lock is free, and otherwise leaves its request waiting with no response. -/
def Obligations.StandbyOnEngagesOrWaits : Prop :=
  ∀ s : State, s.stbyReq = false →
    (s.lock = .standby → exec .ctrlStandbyOn s = .next { s with resps := s.resps ++ [.ok] }) ∧
    (s.lock = .free → exec .ctrlStandbyOn s =
      .next { s with lock := .standby, resps := s.resps ++ [.ok] }) ∧
    (∀ j, s.lock = .conn j → exec .ctrlStandbyOn s = .next { s with stbyReq := true })

/-- R187: STANDBY_OFF while engaged frees the lock and answers OK; a connection waiting in DISP may
then take the lock. -/
def Obligations.StandbyOffFreesTheLock : Prop :=
  ∀ s : State, s.stbyReq = false → s.lock = .standby →
    exec .ctrlStandbyOff s = .next { s with lock := .free, resps := s.resps ++ [.ok] } ∧
    ∀ (i : Nat) (c : Conn) (ins : Instr), s.conns[i]? = some c → c.fsm = .disp → c.cmd = some ins →
      enabled { s with lock := .free, resps := s.resps ++ [.ok] } (.dispatch i) = true

/-- R189 (decision D12) and R190 (decision D19): STANDBY_OFF while not engaged and an illegal code are
answered and reported, and change nothing else; a dispatch's lock is not released. -/
def Obligations.RefusedControlOperationsChangeNothing : Prop :=
  ∀ s : State, s.stbyReq = false →
    (s.lock ≠ .standby → exec .ctrlStandbyOff s = .next { s with
      resps := s.resps ++ [.notEngaged], events := s.events ++ [⟨.standbyNotEngaged, none, []⟩] }) ∧
    (∀ code : Byte, exec (.ctrlIllegal code) s = .next { s with
      resps := s.resps ++ [.illegal], events := s.events ++ [⟨.ctrlIllegal, none, [.num code.toNat]⟩] })

/-- R191 (decisions D19, D32): while a response is outstanding no control operation is enabled, and
none has an effect. That a response is outstanding exactly when `stbyReq` holds is read from R191 (log
13), and that an operation that waits leaves the state as it is from R9 (log 18). -/
def Obligations.ControllerWaitsForItsResponse : Prop :=
  ∀ s : State, s.stbyReq = true →
    (∀ code b, enabled s (.ctrl code b) = false) ∧
    (∀ i : Instr, i.port = .control → exec i s = .next s)

/-- The frame of the control operations: they write no parameter, no table entry, no flag, no output,
no header or payload byte; `run` only START and STOP, `lock` and `stbyReq` only the standby operations,
a connection record only STOP (R37, R181 to R191). -/
def Obligations.ControlOperationsChangeOnlyTheirRegisters : Prop :=
  ∀ (i : Instr) (s t : State), i.port = .control → exec i s = .next t →
    t.params = s.params ∧ t.lut = s.lut ∧ t.fw = s.fw ∧ t.out = s.out ∧ t.cfg = s.cfg ∧
    t.sched = s.sched ∧ t.conns.length = s.conns.length ∧
    (∀ (j : Nat) (c c' : Conn), s.conns[j]? = some c → t.conns[j]? = some c' →
      c'.hb = c.hb ∧ c'.len = c.len ∧ ∀ a, c'.pb.read a = c.pb.read a) ∧
    (i ≠ .ctrlStart → i ≠ .ctrlStop → t.run = s.run) ∧
    (i ≠ .ctrlStandbyOn → i ≠ .ctrlStandbyOff → t.lock = s.lock ∧ t.stbyReq = s.stbyReq) ∧
    (i ≠ .ctrlStop → t.conns = s.conns) ∧
    (∃ es, t.events = s.events ++ es) ∧ (∃ rs, t.resps = s.resps ++ rs)

/-- R185, R186, R249, R30 (decisions D11, D13): while a request waits, the grant engages standby when the
lock is free, and the expiry ends the request with LOCK_TIMEOUT and leaves the lock and every connection
alone; where the lock is free both are enabled. With no request waiting neither is enabled, and offered
alone each is held. Over all enabled moves only STANDBY_ON that met a dispatch raises the request, and
only the grant, the expiry and reset clear it. The responses stand in the trace of log 13. -/
def Obligations.StandbyRequestIsGrantedOrExpires : Prop :=
  (∀ (s : State) (rest : List Move), s.stbyReq = true →
    (s.sched = .grant :: rest → s.lock = .free → step s = .next { s with
      lock := .standby, stbyReq := false, resps := s.resps ++ [.ok], sched := rest }) ∧
    (s.sched = .standbyWaitExpired :: rest → step s = .next { s with
      stbyReq := false, resps := s.resps ++ [.lockTimeout]
      events := s.events ++ [⟨.lockTimeout, none, []⟩], sched := rest }) ∧
    (s.lock = .free → enabled s .grant = true ∧ enabled s .standbyWaitExpired = true) ∧
    (s.lock ≠ .free → enabled s .grant = false)) ∧
  (∀ s : State, s.stbyReq = false →
    enabled s .grant = false ∧ enabled s .standbyWaitExpired = false ∧
    (s.sched = [.grant] ∨ s.sched = [.standbyWaitExpired] → step s = .next s)) ∧
  (∀ (s t : State) (m : Move), enabled s m = true → act m s = .next t → t.stbyReq ≠ s.stbyReq →
    (t.stbyReq = true ∧ (∃ b, m = .ctrl 0x03 b) ∧ ∃ j, s.lock = .conn j) ∨
    (t.stbyReq = false ∧ (m = .grant ∨ m = .standbyWaitExpired ∨ m = .reset)))

/-! ## The LUT engine -/

/-- R140, R8, R147 (decisions D3, D4, D5): the table entry is the clamped rounding of the exact real
power times the whitepoint, for every index, every positive finite gamma, every finite whitepoint and
both tie rules. -/
def Obligations.LutEntryIsTheRealFormula : Prop :=
  ∀ (tie : RoundTie) (i : Byte) (g w : B64), gammaLegal g → f64IsFinite w = true →
    ((lutEntry tie i g w).toNat : ℤ) = realLutEntry tie i.toNat (realOf g) (realOf w)

/-- R142: the model's gamma check is the check on the real number: a finite value is rejected exactly
when it is not positive, both zeros included (N22). -/
def Obligations.GammaCheckIsTheRealSign : Prop :=
  ∀ g : B64, f64IsFinite g = true → (f64IsNonPos g = true ↔ realOf g ≤ 0)

/-- R142, R245 (decision D18): LUT_COMPUTE accepts exactly the legal parameters of R31. It fails on an
illegal gamma whatever the whitepoint, else on the first illegal whitepoint component, each time with
one event and no other change. The event gives the slot as its low 8 bits (log 15) and its info in the
form of log 16. -/
def Obligations.LutComputeChecksInOrder : Prop :=
  ∀ (i : Nat) (p : CcParams) (s : State),
    (¬ gammaLegal p.gamma → lutCompute i p s = (.fail, { s with
      events := s.events ++ [⟨.invalidGamma, some (BitVec.ofNat 8 i), [.b64 p.gamma]⟩] })) ∧
    (∀ k : Fin 3, gammaLegal p.gamma → f64IsFinite (whitepoint p k) = false →
      (∀ k' < k, f64IsFinite (whitepoint p k') = true) → lutCompute i p s = (.fail, { s with
        events := s.events ++ [⟨.invalidWhitepoint, some (BitVec.ofNat 8 i), [.num k.val]⟩] })) ∧
    (gammaLegal p.gamma → whitepointsLegal p →
      lutCompute i p s = (.ok, { s with params := p, lut := lutTable s.cfg.roundTie p }))

/-- R144: a failing LUT_COMPUTE changes no parameter and no table entry; a succeeding one replaces the
four parameters and all 768 entries together. -/
def Obligations.LutComputeIsAllOrNothing : Prop :=
  ∀ (i : Nat) (p : CcParams) (s t : State) (r : ComputeResult), lutCompute i p s = (r, t) →
    (r = .fail → t.params = s.params ∧ ∀ k j, t.lut.entry k j = s.lut.entry k j) ∧
    (r = .ok → t.params = p ∧
      ∀ k j, t.lut.entry k j = lutEntry s.cfg.roundTie j p.gamma (whitepoint p k))

/-- R145: LUT_APPLY keeps the number and the order of the pixels and maps r, g, b each through its own
table. -/
def Obligations.LutApplyMapsEveryComponent : Prop :=
  ∀ (l : Lut) (px : List Pixel), (lutApply l px).length = px.length ∧
    ∀ (j : Nat) (p : Pixel), px[j]? = some p →
      ∃ q : Pixel, (lutApply l px)[j]? = some q ∧
        q.r = l.t0[p.r.toNat]'p.r.isLt ∧ q.g = l.t1[p.g.toNat]'p.g.isLt ∧ q.b = l.t2[p.b.toNat]'p.b.isLt

/-- R141 (a), (c), (d), inferences of the spec from R140: entry 0 is 0; the table of gamma 1.0 and
whitepoint 1.0 is the identity, so the reset table is the table of the reset parameters (R32); a
whitepoint that is negative or zero gives 0 everywhere. Under both tie rules. -/
def Obligations.LutEntryConsequences : Prop :=
  (∀ tie g w, gammaLegal g → f64IsFinite w = true → lutEntry tie 0 g w = 0) ∧
  (∀ tie i, lutEntry tie i b64One b64One = i) ∧
  (∀ tie, lutTable tie paramsReset = ⟨identityRow, identityRow, identityRow⟩) ∧
  (∀ tie i g w, gammaLegal g → f64IsFinite w = true → f64IsNonPos w = true → lutEntry tie i g w = 0)

/-- R149, the spec's inference from R140, R142, R145: a SETPIX dispatched in a state of the invariant
outputs, for each pixel, the formula's values for the parameters in force. -/
def Obligations.PixelsAreCorrectedByTheFormula : Prop :=
  ∀ (ch : Byte) (px : List Pixel) (tr : List Byte) (s : State) (c : Conn), BlockInv s → Ready s c →
    s.cfg.hasPixConsumer = true → ∃ t out, exec (.setpix ch px tr) s = .next t ∧ t.out = .pix out ∧
      out.length = px.length ∧
      ∀ (j : Nat) (p : Pixel), px[j]? = some p → ∃ q : Pixel, out[j]? = some q ∧
        (q.r.toNat : ℤ) = realLutEntry s.cfg.roundTie p.r.toNat (realOf s.params.gamma) (realOf s.params.wp0) ∧
        (q.g.toNat : ℤ) = realLutEntry s.cfg.roundTie p.g.toNat (realOf s.params.gamma) (realOf s.params.wp1) ∧
        (q.b.toNat : ℤ) = realLutEntry s.cfg.roundTie p.b.toNat (realOf s.params.gamma) (realOf s.params.wp2)

/-- R214 P2, P3, P4, P6 (decision D7; the length bound is log 9, the meaning of valid UTF-8 log 8): what
the body parser accepts is valid UTF-8 and is the example body or a record; it gives (2.0, 1.0, 1.0, 1.0)
on the example body, and `None` on the empty body, on an invalid text and on `{"gamma"`. -/
def Obligations.BodyParserHasItsProperties : Prop :=
  (∀ (body : List Byte) (p : CcParams), ccParse body = some p →
    utf8Valid body = true ∧ 19 ≤ body.length ∧ (body = ccExampleBody ∨ Config.isCcRecord body = true)) ∧
  ccParse ccExampleBody =
    some ⟨0x4000000000000000, 0x3FF0000000000000, 0x3FF0000000000000, 0x3FF0000000000000⟩ ∧
  ccParse [] = none ∧ ccParse [0xFF] = none ∧
  ccParse [0x7B, 0x22, 0x67, 0x61, 0x6D, 0x6D, 0x61, 0x22] = none

/-! ## The whole machine -/

/-- What reset leaves (R270, R271; the values of `hb` and `len` are the model's, log 3, and are not
stated here): from any state a reset step gives every piece of state its reset value, with the
instance's parameters and number of connections kept. -/
def Obligations.ResetLeavesResetValues : Prop :=
  ∀ (s : State) (rest : List Move), s.sched = .reset :: rest → ∃ t, step s = .next t ∧
    t.run = .idle ∧ t.lock = .free ∧ t.stbyReq = false ∧ t.fw = 0 ∧ t.out = .none ∧ t.events = [] ∧
    t.params = ⟨0x3FF0000000000000, 0x3FF0000000000000, 0x3FF0000000000000, 0x3FF0000000000000⟩ ∧
    (∀ k i, t.lut.entry k i = i) ∧ t.conns.length = s.conns.length ∧ t.cfg = s.cfg ∧
    (∀ c ∈ t.conns, c.fsm = .closed ∧ c.hcount = 0 ∧ c.pcount = 0 ∧ c.cmd = none ∧ c.closing = false)

/-- The invariant holds after reset, for every parameter set and every number of connections. -/
def Obligations.InvariantHoldsAtReset : Prop :=
  BlockInv State.reset ∧
  ∀ (cfg : Config) (n : Nat) (sched : List Move), 1 ≤ n → BlockInv (State.resetWith cfg n sched)

/-- Every step from every state of the invariant keeps it (R22 to R34, R21, R183, R242). -/
def Obligations.EveryStepKeepsTheInvariant : Prop :=
  ∀ s t : State, BlockInv s → step s = .next t → BlockInv t

/-- "No step of this block faults" (R9, decisions D1, D27): from every state of the invariant every
step answers a next state, whatever moves are offered. -/
def Obligations.NoStepFaults : Prop := ∀ s : State, BlockInv s → Safe s

/-- R59, R254, inferences of the spec: while standby is engaged, no move but STANDBY_OFF and reset ends
it, presents an output, or changes the parameters, the table or a flag. It is entered only from a free
lock, by STANDBY_ON or by the grant of a request that waits, and the controller is answered OK (in the
trace of log 13). -/
def Obligations.StandbyIsABarrier : Prop :=
  (∀ (s t : State) (m : Move), BlockInv s → s.lock = .standby → enabled s m = true → act m s = .next t →
    m ≠ .reset → (∀ b, m ≠ .ctrl 0x04 b) →
    t.lock = .standby ∧ t.out = .none ∧ t.params = s.params ∧ t.lut = s.lut ∧ t.fw = s.fw) ∧
  (∀ (s t : State) (m : Move), BlockInv s → s.lock ≠ .standby → enabled s m = true →
    act m s = .next t → t.lock = .standby → s.lock = .free ∧ t.resps = s.resps ++ [.ok] ∧ t.stbyReq = false ∧
    ((m = .grant ∧ s.stbyReq = true) ∨ ∃ b, m = .ctrl 0x03 b))

/-- R243: a step that reports an event changes no parameter, table entry or flag; a step of one
connection changes no other connection's record; only a failed bind at START takes the whole server
down. -/
def Obligations.ErrorsAreIsolated : Prop :=
  ∀ (s t : State) (m : Move), BlockInv s → enabled s m = true → act m s = .next t → m ≠ .reset →
    (t.events ≠ s.events → t.params = s.params ∧ t.lut = s.lut ∧ t.fw = s.fw) ∧
    (∀ (i : Nat) (b : Byte), m = .connOpen i ∨ m = .rxByte i b ∨ m = .rxEof i ∨ m = .rxTimeout i ∨
      m = .dispatch i → ∀ j, j ≠ i → t.conns[j]? = s.conns[j]?) ∧
    (∀ i, m = .consAck → s.lock = .conn i → ∀ j, j ≠ i → t.conns[j]? = s.conns[j]?) ∧
    (t.run = .failed → s.run = .failed ∨ (s.run = .idle ∧ m = .ctrl 0x01 false))

/-- R31, R33, R62 (R33 with decisions D16, D25): over all moves, the parameters and the table change
only in the dispatch of a colour correction whose body parses, and by reset; the flags only in the
dispatch of a firmware-flag sysEx, and by reset. -/
def Obligations.SharedRegistersHaveOneWriter : Prop :=
  ∀ (s t : State) (m : Move), act m s = .next t → m ≠ .reset →
    (t.params ≠ s.params ∨ t.lut ≠ s.lut → ∃ i c ch body, m = .dispatch i ∧ s.conns[i]? = some c ∧
      c.cmd = some (.sysexCc ch body) ∧ s.lock = .free ∧ ccParse body = some t.params) ∧
    (t.fw ≠ s.fw → ∃ i c ch b more, m = .dispatch i ∧ s.conns[i]? = some c ∧
      c.cmd = some (.sysexFwflags ch (b :: more)) ∧ s.lock = .free ∧ t.fw = b.extractLsb' 0 4)

/-- R35, R241 (decision D26): every move but reset only appends to the event output. The same holds of the
responses, whose trace is the model's own field (log 13); that a reset step empties both is R270 for the
events and log 21 for the responses. -/
def Obligations.OutputsOnlyAppended : Prop :=
  ∀ (s t : State) (m : Move), act m s = .next t →
    (m ≠ .reset → (∃ es, t.events = s.events ++ es) ∧ ∃ rs, t.resps = s.resps ++ rs) ∧
    (m = .reset → t.events = [] ∧ t.resps = [])

/-- R240, R241 (the codes are the spec's decision D18, the record D26): each event has the code of the
table, no two the same. Whatever move is taken, a record it appends carries no connection exactly when
its code is 0x31 or above, and a record appended by a framer or dispatch move of connection `i` carries
`i`, as its low 8 bits (log 15). -/
def Obligations.EventRecordsFollowTheTable : Prop :=
  (EventCode.framingTruncHeader.toByte = 0x01 ∧ EventCode.framingTruncPayload.toByte = 0x02 ∧
    EventCode.readTimeout.toByte = 0x03 ∧ EventCode.peerClosed.toByte = 0x04 ∧
    EventCode.connAbortedStop.toByte = 0x05 ∧ EventCode.unknownCommand.toByte = 0x10 ∧
    EventCode.sysexUnknownDevice.toByte = 0x11 ∧ EventCode.sysexUnknownExtension.toByte = 0x12 ∧
    EventCode.ccDecodeError.toByte = 0x20 ∧ EventCode.fwBodyEmpty.toByte = 0x21 ∧
    EventCode.invalidGamma.toByte = 0x28 ∧ EventCode.invalidWhitepoint.toByte = 0x29 ∧
    EventCode.ccSuppressedStandby.toByte = 0x30 ∧ EventCode.lockTimeout.toByte = 0x31 ∧
    EventCode.standbyNotEngaged.toByte = 0x32 ∧ EventCode.ctrlIllegal.toByte = 0x33 ∧
    EventCode.ctrlBadState.toByte = 0x34 ∧ EventCode.bindError.toByte = 0x3F) ∧
  (∀ e e' : EventCode, e.toByte = e'.toByte → e = e') ∧
  (∀ (s t : State) (m : Move) (es : List EventRec), act m s = .next t → t.events = s.events ++ es →
    ∀ e ∈ es, (e.conn = none ↔ 0x31 ≤ e.code.toByte.toNat) ∧
      ∀ (i : Nat) (b : Byte), BlockInv s → m = .connOpen i ∨ m = .rxByte i b ∨ m = .rxEof i ∨ m = .rxTimeout i ∨
        m = .dispatch i → e.conn = some (BitVec.ofNat 8 i))

/-- R36, R33 (decisions D25, D16): the status outputs are the flag register, whether standby is engaged,
and the run state, in every state; the four flags are its bits 0 to 3. So they show a firmware-flag byte
once it is dispatched, standby once it is engaged and no more once it is off, RUNNING once START has
bound, and after reset no flag, no standby and IDLE. -/
def Obligations.StatusOutputsFollowTheState : Prop :=
  (∀ s : State, s.fwFlags = s.fw ∧ (s.standbyActive = true ↔ s.lock = .standby) ∧ s.runState = s.run ∧
    s.noDither = s.fw.getLsbD 0 ∧ s.noInterp = s.fw.getLsbD 1 ∧ s.manualLed = s.fw.getLsbD 2 ∧
    s.ledOnOff = s.fw.getLsbD 3) ∧
  (∀ (ch b : Byte) (more : List Byte) (s : State) (c : Conn), Ready s c →
    ∃ t, exec (.sysexFwflags ch (b :: more)) s = .next t ∧ t.noDither = b.getLsbD 0 ∧
      t.noInterp = b.getLsbD 1 ∧ t.manualLed = b.getLsbD 2 ∧ t.ledOnOff = b.getLsbD 3 ∧
      ∀ n, n < 4 → t.fwFlags.getLsbD n = b.getLsbD n) ∧
  (∀ s : State, s.stbyReq = false →
    (s.lock = .free → ∃ t, exec .ctrlStandbyOn s = .next t ∧ t.standbyActive = true) ∧
    (s.lock = .standby → ∃ t, exec .ctrlStandbyOff s = .next t ∧ t.standbyActive = false) ∧
    (s.run = .idle → s.bindOk = true → ∃ t, exec .ctrlStart s = .next t ∧ t.runState = .running)) ∧
  State.reset.fwFlags = 0 ∧ State.reset.standbyActive = false ∧ State.reset.runState = .idle

/-- R271 (decisions D2, D24): the construction parameters and the number of connections are fixed for
the life of the instance, reset included. -/
def Obligations.InstanceParametersNeverChange : Prop :=
  ∀ s t : State, step s = .next t → t.cfg = s.cfg ∧ t.conns.length = s.conns.length

/-- R21 (decision D21): over all moves, `run` changes only by START from IDLE, by STOP, and by reset. -/
def Obligations.RunStateChangesOnlyByControl : Prop :=
  ∀ (s t : State) (m : Move), BlockInv s → act m s = .next t → t.run ≠ s.run →
    m = .reset ∨ (∃ b, m = .ctrl 0x02 b ∧ t.run = .terminated) ∨
    (∃ b, m = .ctrl 0x01 b ∧ s.run = .idle ∧ t.run = (if b then .running else .failed))

/-- R183, R270 (decisions D20, D21): once STOP has been given no connection ever opens again without a
reset: the set of open connections only shrinks. -/
def Obligations.NoConnectionOpensAfterStop : Prop :=
  ∀ (s t : State) (m : Move), BlockInv s → enabled s m = true → act m s = .next t →
    s.run = .terminated → m ≠ .reset →
    t.run = .terminated ∧
    ∀ (i : Nat) (c' : Conn), t.conns[i]? = some c' → c'.fsm ≠ .closed → ∃ c : Conn, s.conns[i]? = some c ∧ c.fsm ≠ .closed
end

