-- ==== Sys2Proof/Laws/Decode.lean ====
section
/-! SUPPORT. The decoder's and the encoder's parts: big-endian fields, pixel triples, one frame from
the front of a byte stream. -/

namespace Sys2Proof

/-- A big-endian field's value: the high byte times 256, plus the low byte (R52). -/
theorem u16be_toNat (hi lo : Byte) : (u16be hi lo).toNat = 256 * hi.toNat + lo.toNat := by
  unfold u16be
  rw [BitVec.toNat_append, ← Nat.shiftLeft_add_eq_or_of_lt lo.isLt, Nat.shiftLeft_eq]
  omega

/-- The two bytes written for a field are read back as it. -/
theorem u16be_u16Bytes (v : U16) : u16be (v.extractLsb' 8 8) (v.extractLsb' 0 8) = v := by
  apply BitVec.eq_of_toNat_eq
  rw [u16be_toNat]
  simp [BitVec.extractLsb'_toNat, Nat.shiftRight_eq_div_pow]
  have := v.isLt
  omega

/-- The field read from two bytes is written as these bytes. -/
theorem u16Bytes_u16be (hi lo : Byte) : u16Bytes (u16be hi lo) = [hi, lo] := by
  have h := u16be_toNat hi lo
  have := lo.isLt
  have := hi.isLt
  simp only [u16Bytes, List.cons.injEq, and_true]
  constructor <;> apply BitVec.eq_of_toNat_eq <;>
    simp [BitVec.extractLsb'_toNat, Nat.shiftRight_eq_div_pow, h] <;> omega

/-- Pixels written one after another, with at most two bytes behind, are read back (R84). -/
theorem triples_pixelBytes (px : List Pixel) {tr : List Byte} (h : tr.length ≤ 2) :
    triples (px.flatMap pixelBytes ++ tr) = (px, tr) := by
  induction px with
  | nil =>
    match tr, h with
    | [], _ => rfl
    | [_], _ => rfl
    | [_, _], _ => rfl
    | _ :: _ :: _ :: _, h => simp at h
  | cons p rest ih =>
    simp only [List.flatMap_cons, pixelBytes, List.cons_append, List.nil_append, triples] at ih ⊢
    simp [ih]

/-- No byte of a pixel payload is lost: the triples and the trailing bytes are all of it. -/
theorem pixelBytes_triples (p : List Byte) :
    (triples p).1.flatMap pixelBytes ++ (triples p).2 = p := by
  induction p using triples.induct with
  | case1 r g b rest ih => simpa [triples, pixelBytes] using ih
  | case2 rest h =>
    unfold triples
    split
    · rename_i a b c d
      exact absurd rfl (h a b c d)
    · rfl

/-- How many triples and trailing bytes there are (R111). -/
theorem triples_length (p : List Byte) :
    3 * (triples p).1.length + (triples p).2.length = p.length ∧ (triples p).2.length ≤ 2 := by
  induction p using triples.induct with
  | case1 r g b rest ih => simp [triples]; omega
  | case2 rest h =>
    match rest with
    | [] => simp [triples]
    | [_] => simp [triples]
    | [_, _] => simp [triples]
    | a :: b :: c :: d => exact absurd rfl (h a b c d)

theorem sysexBytes_length (sid cid : U16) (body : List Byte) :
    (sysexBytes sid cid body).length = body.length + 4 := by
  simp [sysexBytes, u16Bytes]

/-- The header of a frame gives the length of its payload (R81). -/
theorem header_length_frame (ch cmd : Byte) {p : List Byte} (hp : p.length ≤ 65535) :
    (HeaderBytes.length ⟨ch, cmd, (BitVec.ofNat 16 p.length).extractLsb' 8 8,
      (BitVec.ofNat 16 p.length).extractLsb' 0 8⟩).toNat = p.length := by
  simp only [HeaderBytes.length, u16be_u16Bytes]
  simp
  omega

/-- A written frame is read as the decode of its header and its payload, and the rest is left (R90). -/
theorem decodeFrame_frameBytes (ch cmd : Byte) {p : List Byte} (hp : p.length ≤ 65535)
    (rest : List Byte) :
    decodeFrame (frameBytes ch cmd p ++ rest) =
      .ok (decodePayload ⟨ch, cmd, (BitVec.ofNat 16 p.length).extractLsb' 8 8,
        (BitVec.ofNat 16 p.length).extractLsb' 0 8⟩ p, rest) := by
  have hl := header_length_frame ch cmd hp
  simp only [frameBytes, u16Bytes, List.cons_append, List.nil_append, decodeFrame, hl]
  simp

/-- A frame read to its last byte is the decode of its header and its whole payload. -/
theorem decodeFrame_exact {h : HeaderBytes} {p : List Byte} {i : Instr}
    (hd : decodeFrame ([h.b0, h.b1, h.b2, h.b3] ++ p) = .ok (i, [])) : decodePayload h p = i := by
  simp only [List.cons_append, List.nil_append, decodeFrame] at hd
  split at hd
  · cases hd
  · have hd := Except.ok.inj hd
    have h1 := congrArg Prod.fst hd
    have h2 := congrArg Prod.snd hd
    simp only at h1 h2
    have hl : p.length ≤ (HeaderBytes.length ⟨h.b0, h.b1, h.b2, h.b3⟩).toNat := by simpa using h2
    rw [List.take_of_length_le hl] at h1
    exact h1

/-- What the decoder gives is always a frame instruction. -/
theorem decodePayload_port (h : HeaderBytes) (p : List Byte) : (decodePayload h p).port = .wire := by
  unfold decodePayload decodeSubHeader
  repeat' split
  all_goals rfl

/-- What a control code stands for is always a control operation. -/
theorem decodeCtrl_port (code : Byte) : (decodeCtrl code).port = .control := by
  unfold decodeCtrl
  repeat' split
  all_goals rfl

theorem port_cases (i : Instr) : i.port = .wire ∨ i.port = .control := by
  cases i <;> simp [Instr.port]

end Sys2Proof
end

