-- ==== Sys2Proof/Laws/State.lean ====
section
/-! SUPPORT. One lemma per field per update of State, so that no proof unfolds an update. -/

namespace Sys2Proof.Machine

open Sys2Proof

@[simp] theorem emit_run (s : State) (e : EventRec) : (s.emit e).run = s.run := rfl
@[simp] theorem emit_conns (s : State) (e : EventRec) : (s.emit e).conns = s.conns := rfl
@[simp] theorem emit_lock (s : State) (e : EventRec) : (s.emit e).lock = s.lock := rfl
@[simp] theorem emit_stbyReq (s : State) (e : EventRec) : (s.emit e).stbyReq = s.stbyReq := rfl
@[simp] theorem emit_params (s : State) (e : EventRec) : (s.emit e).params = s.params := rfl
@[simp] theorem emit_lut (s : State) (e : EventRec) : (s.emit e).lut = s.lut := rfl
@[simp] theorem emit_fw (s : State) (e : EventRec) : (s.emit e).fw = s.fw := rfl
@[simp] theorem emit_out (s : State) (e : EventRec) : (s.emit e).out = s.out := rfl
@[simp] theorem emit_events (s : State) (e : EventRec) : (s.emit e).events = s.events ++ [e] := rfl
@[simp] theorem emit_resps (s : State) (e : EventRec) : (s.emit e).resps = s.resps := rfl
@[simp] theorem emit_cfg (s : State) (e : EventRec) : (s.emit e).cfg = s.cfg := rfl
@[simp] theorem emit_cur (s : State) (e : EventRec) : (s.emit e).cur = s.cur := rfl
@[simp] theorem emit_bindOk (s : State) (e : EventRec) : (s.emit e).bindOk = s.bindOk := rfl
@[simp] theorem emit_sched (s : State) (e : EventRec) : (s.emit e).sched = s.sched := rfl

@[simp] theorem respond_run (s : State) (r : Response) : (s.respond r).run = s.run := rfl
@[simp] theorem respond_conns (s : State) (r : Response) : (s.respond r).conns = s.conns := rfl
@[simp] theorem respond_lock (s : State) (r : Response) : (s.respond r).lock = s.lock := rfl
@[simp] theorem respond_stbyReq (s : State) (r : Response) : (s.respond r).stbyReq = s.stbyReq := rfl
@[simp] theorem respond_params (s : State) (r : Response) : (s.respond r).params = s.params := rfl
@[simp] theorem respond_lut (s : State) (r : Response) : (s.respond r).lut = s.lut := rfl
@[simp] theorem respond_fw (s : State) (r : Response) : (s.respond r).fw = s.fw := rfl
@[simp] theorem respond_out (s : State) (r : Response) : (s.respond r).out = s.out := rfl
@[simp] theorem respond_events (s : State) (r : Response) : (s.respond r).events = s.events := rfl
@[simp] theorem respond_resps (s : State) (r : Response) : (s.respond r).resps = s.resps ++ [r] := rfl
@[simp] theorem respond_cfg (s : State) (r : Response) : (s.respond r).cfg = s.cfg := rfl
@[simp] theorem respond_cur (s : State) (r : Response) : (s.respond r).cur = s.cur := rfl
@[simp] theorem respond_bindOk (s : State) (r : Response) : (s.respond r).bindOk = s.bindOk := rfl
@[simp] theorem respond_sched (s : State) (r : Response) : (s.respond r).sched = s.sched := rfl

@[simp] theorem present_run (s : State) (o : Out) : (s.present o).run = s.run := rfl
@[simp] theorem present_conns (s : State) (o : Out) : (s.present o).conns = s.conns := rfl
@[simp] theorem present_lock (s : State) (o : Out) : (s.present o).lock = s.lock := rfl
@[simp] theorem present_stbyReq (s : State) (o : Out) : (s.present o).stbyReq = s.stbyReq := rfl
@[simp] theorem present_params (s : State) (o : Out) : (s.present o).params = s.params := rfl
@[simp] theorem present_lut (s : State) (o : Out) : (s.present o).lut = s.lut := rfl
@[simp] theorem present_fw (s : State) (o : Out) : (s.present o).fw = s.fw := rfl
@[simp] theorem present_out (s : State) (o : Out) : (s.present o).out = o := rfl
@[simp] theorem present_events (s : State) (o : Out) : (s.present o).events = s.events := rfl
@[simp] theorem present_resps (s : State) (o : Out) : (s.present o).resps = s.resps := rfl
@[simp] theorem present_cfg (s : State) (o : Out) : (s.present o).cfg = s.cfg := rfl
@[simp] theorem present_cur (s : State) (o : Out) : (s.present o).cur = s.cur := rfl
@[simp] theorem present_bindOk (s : State) (o : Out) : (s.present o).bindOk = s.bindOk := rfl
@[simp] theorem present_sched (s : State) (o : Out) : (s.present o).sched = s.sched := rfl

@[simp] theorem setLock_run (s : State) (l : Lock) : (s.setLock l).run = s.run := rfl
@[simp] theorem setLock_conns (s : State) (l : Lock) : (s.setLock l).conns = s.conns := rfl
@[simp] theorem setLock_lock (s : State) (l : Lock) : (s.setLock l).lock = l := rfl
@[simp] theorem setLock_stbyReq (s : State) (l : Lock) : (s.setLock l).stbyReq = s.stbyReq := rfl
@[simp] theorem setLock_params (s : State) (l : Lock) : (s.setLock l).params = s.params := rfl
@[simp] theorem setLock_lut (s : State) (l : Lock) : (s.setLock l).lut = s.lut := rfl
@[simp] theorem setLock_fw (s : State) (l : Lock) : (s.setLock l).fw = s.fw := rfl
@[simp] theorem setLock_out (s : State) (l : Lock) : (s.setLock l).out = s.out := rfl
@[simp] theorem setLock_events (s : State) (l : Lock) : (s.setLock l).events = s.events := rfl
@[simp] theorem setLock_resps (s : State) (l : Lock) : (s.setLock l).resps = s.resps := rfl
@[simp] theorem setLock_cfg (s : State) (l : Lock) : (s.setLock l).cfg = s.cfg := rfl
@[simp] theorem setLock_cur (s : State) (l : Lock) : (s.setLock l).cur = s.cur := rfl
@[simp] theorem setLock_bindOk (s : State) (l : Lock) : (s.setLock l).bindOk = s.bindOk := rfl
@[simp] theorem setLock_sched (s : State) (l : Lock) : (s.setLock l).sched = s.sched := rfl

@[simp] theorem modifyConn_run (s : State) (i : Nat) (f : Conn → Conn) : (s.modifyConn i f).run = s.run := rfl
@[simp] theorem modifyConn_conns (s : State) (i : Nat) (f : Conn → Conn) : (s.modifyConn i f).conns = s.conns.modify i f := rfl
@[simp] theorem modifyConn_lock (s : State) (i : Nat) (f : Conn → Conn) : (s.modifyConn i f).lock = s.lock := rfl
@[simp] theorem modifyConn_stbyReq (s : State) (i : Nat) (f : Conn → Conn) : (s.modifyConn i f).stbyReq = s.stbyReq := rfl
@[simp] theorem modifyConn_params (s : State) (i : Nat) (f : Conn → Conn) : (s.modifyConn i f).params = s.params := rfl
@[simp] theorem modifyConn_lut (s : State) (i : Nat) (f : Conn → Conn) : (s.modifyConn i f).lut = s.lut := rfl
@[simp] theorem modifyConn_fw (s : State) (i : Nat) (f : Conn → Conn) : (s.modifyConn i f).fw = s.fw := rfl
@[simp] theorem modifyConn_out (s : State) (i : Nat) (f : Conn → Conn) : (s.modifyConn i f).out = s.out := rfl
@[simp] theorem modifyConn_events (s : State) (i : Nat) (f : Conn → Conn) : (s.modifyConn i f).events = s.events := rfl
@[simp] theorem modifyConn_resps (s : State) (i : Nat) (f : Conn → Conn) : (s.modifyConn i f).resps = s.resps := rfl
@[simp] theorem modifyConn_cfg (s : State) (i : Nat) (f : Conn → Conn) : (s.modifyConn i f).cfg = s.cfg := rfl
@[simp] theorem modifyConn_cur (s : State) (i : Nat) (f : Conn → Conn) : (s.modifyConn i f).cur = s.cur := rfl
@[simp] theorem modifyConn_bindOk (s : State) (i : Nat) (f : Conn → Conn) : (s.modifyConn i f).bindOk = s.bindOk := rfl
@[simp] theorem modifyConn_sched (s : State) (i : Nat) (f : Conn → Conn) : (s.modifyConn i f).sched = s.sched := rfl

@[simp] theorem putConn_run (s : State) (i : Nat) (c : Conn) : (s.putConn i c).run = s.run := rfl
@[simp] theorem putConn_conns (s : State) (i : Nat) (c : Conn) : (s.putConn i c).conns = s.conns.set i c := rfl
@[simp] theorem putConn_lock (s : State) (i : Nat) (c : Conn) : (s.putConn i c).lock = s.lock := rfl
@[simp] theorem putConn_stbyReq (s : State) (i : Nat) (c : Conn) : (s.putConn i c).stbyReq = s.stbyReq := rfl
@[simp] theorem putConn_params (s : State) (i : Nat) (c : Conn) : (s.putConn i c).params = s.params := rfl
@[simp] theorem putConn_lut (s : State) (i : Nat) (c : Conn) : (s.putConn i c).lut = s.lut := rfl
@[simp] theorem putConn_fw (s : State) (i : Nat) (c : Conn) : (s.putConn i c).fw = s.fw := rfl
@[simp] theorem putConn_out (s : State) (i : Nat) (c : Conn) : (s.putConn i c).out = s.out := rfl
@[simp] theorem putConn_events (s : State) (i : Nat) (c : Conn) : (s.putConn i c).events = s.events := rfl
@[simp] theorem putConn_resps (s : State) (i : Nat) (c : Conn) : (s.putConn i c).resps = s.resps := rfl
@[simp] theorem putConn_cfg (s : State) (i : Nat) (c : Conn) : (s.putConn i c).cfg = s.cfg := rfl
@[simp] theorem putConn_cur (s : State) (i : Nat) (c : Conn) : (s.putConn i c).cur = s.cur := rfl
@[simp] theorem putConn_bindOk (s : State) (i : Nat) (c : Conn) : (s.putConn i c).bindOk = s.bindOk := rfl
@[simp] theorem putConn_sched (s : State) (i : Nat) (c : Conn) : (s.putConn i c).sched = s.sched := rfl

@[simp] theorem close_fsm (c : Conn) : c.close.fsm = .closed := rfl
@[simp] theorem close_hcount (c : Conn) : c.close.hcount = 0 := rfl
@[simp] theorem close_hb (c : Conn) : c.close.hb = c.hb := rfl
@[simp] theorem close_len (c : Conn) : c.close.len = c.len := rfl
@[simp] theorem close_pb (c : Conn) : c.close.pb = c.pb := rfl
@[simp] theorem close_pcount (c : Conn) : c.close.pcount = 0 := rfl
@[simp] theorem close_cmd (c : Conn) : c.close.cmd = none := rfl
@[simp] theorem close_closing (c : Conn) : c.close.closing = c.closing := rfl

@[simp] theorem nextHeader_fsm (c : Conn) : c.nextHeader.fsm = .hdr := rfl
@[simp] theorem nextHeader_hcount (c : Conn) : c.nextHeader.hcount = 0 := rfl
@[simp] theorem nextHeader_hb (c : Conn) : c.nextHeader.hb = c.hb := rfl
@[simp] theorem nextHeader_len (c : Conn) : c.nextHeader.len = c.len := rfl
@[simp] theorem nextHeader_pb (c : Conn) : c.nextHeader.pb = c.pb := rfl
@[simp] theorem nextHeader_pcount (c : Conn) : c.nextHeader.pcount = 0 := rfl
@[simp] theorem nextHeader_cmd (c : Conn) : c.nextHeader.cmd = none := rfl
@[simp] theorem nextHeader_closing (c : Conn) : c.nextHeader.closing = c.closing := rfl

@[simp] theorem shut_fsm (c : Conn) : c.shut.fsm = .closed := rfl
@[simp] theorem shut_hcount (c : Conn) : c.shut.hcount = 0 := rfl
@[simp] theorem shut_hb (c : Conn) : c.shut.hb = c.hb := rfl
@[simp] theorem shut_len (c : Conn) : c.shut.len = c.len := rfl
@[simp] theorem shut_pb (c : Conn) : c.shut.pb = c.pb := rfl
@[simp] theorem shut_pcount (c : Conn) : c.shut.pcount = 0 := rfl
@[simp] theorem shut_cmd (c : Conn) : c.shut.cmd = none := rfl
@[simp] theorem shut_closing (c : Conn) : c.shut.closing = c.closing := rfl

@[simp] theorem atBoundary_fsm (c : Conn) : c.atBoundary.fsm = .hdr := rfl
@[simp] theorem atBoundary_hcount (c : Conn) : c.atBoundary.hcount = 0 := rfl
@[simp] theorem atBoundary_hb (c : Conn) : c.atBoundary.hb = c.hb := rfl
@[simp] theorem atBoundary_len (c : Conn) : c.atBoundary.len = c.len := rfl
@[simp] theorem atBoundary_pb (c : Conn) : c.atBoundary.pb = c.pb := rfl
@[simp] theorem atBoundary_pcount (c : Conn) : c.atBoundary.pcount = 0 := rfl
@[simp] theorem atBoundary_cmd (c : Conn) : c.atBoundary.cmd = none := rfl
@[simp] theorem atBoundary_closing (c : Conn) : c.atBoundary.closing = c.closing := rfl

/-- The record form the rules give is the one the operations write. -/
theorem close_eq_shut (c : Conn) : c.close = c.shut := rfl

theorem nextHeader_eq_atBoundary (c : Conn) : c.nextHeader = c.atBoundary := rfl

/-- Changing a record that exists is replacing it. -/
theorem modifyConn_eq_putConn {s : State} {i : Nat} {c : Conn} (h : s.conns[i]? = some c)
    (f : Conn → Conn) : s.modifyConn i f = s.putConn i (f c) := by
  have hl : s.conns.modify i f = s.conns.set i (f c) := by
    refine List.ext_getElem? fun j => ?_
    obtain ⟨hi, hc⟩ := List.getElem?_eq_some_iff.mp h
    by_cases hj : i = j
    · subst hj
      simp [hi, hc]
    · simp [hj]
  simp [State.modifyConn, State.putConn, hl]

/-- Changing record `i` leaves the others alone. -/
theorem modifyConn_other {s : State} {i j : Nat} (h : j ≠ i) (f : Conn → Conn) :
    (s.modifyConn i f).conns[j]? = s.conns[j]? := by
  simp [Ne.symm h]

theorem modifyConn_length (s : State) (i : Nat) (f : Conn → Conn) :
    (s.modifyConn i f).conns.length = s.conns.length := by simp

theorem connIn_iff {s : State} {i : Nat} {f : Fsm} :
    s.connIn i f = true ↔ ∃ c, s.conns[i]? = some c ∧ c.fsm = f := by
  unfold State.connIn
  cases h : s.conns[i]? <;> simp

end Sys2Proof.Machine
end

