-- ==== Sys2Proof/Laws/Ops.lean ====
section
/-! SUPPORT. What each shared operation can do, said once: entering and leaving a dispatch, a control
operation, the choice of the next move. -/

namespace Sys2Proof.Machine

open Sys2Proof

theorem connIn_of {s : State} {i : Nat} {c : Conn} (h : s.conns[i]? = some c) (f : Fsm) :
    s.connIn i f = decide (c.fsm = f) := by
  simp [State.connIn, h]

/-- DispatchEnd without a STOP in between (R222). -/
theorem dispatchEnd_open {s : State} {i : Nat} {c : Conn} (h : s.conns[i]? = some c)
    (hc : c.closing = false) :
    dispatchEnd i s = { s.putConn i c.atBoundary with lock := .free } := by
  simp only [dispatchEnd, h, hc, Bool.false_eq_true, if_false]
  rw [modifyConn_eq_putConn (c := c) (by simpa using h)]
  rfl

/-- DispatchEnd after a STOP came during the dispatch (R222). -/
theorem dispatchEnd_closing {s : State} {i : Nat} {c : Conn} (h : s.conns[i]? = some c)
    (hc : c.closing = true) :
    dispatchEnd i s = { s.putConn i { c.shut with closing := false } with
      lock := .free
      events := s.events ++ [connEvent .connAbortedStop i [.fsm .disp, .num 0, .num 0]] } := by
  simp only [dispatchEnd, h, hc, if_true]
  rw [modifyConn_eq_putConn (c := c) (by simpa using h)]
  rfl

/-- What DispatchEnd writes in any case: the lock, the record's framer fields, at most one event. -/
theorem dispatchEnd_cases (i : Nat) (s : State) :
    ∃ f es, dispatchEnd i s =
        { s with lock := .free, conns := s.conns.modify i f, events := s.events ++ es } ∧
      ∀ c, (f c).hb = c.hb ∧ (f c).len = c.len ∧ (f c).pb = c.pb := by
  unfold dispatchEnd
  split
  · split
    · exact ⟨fun c => { c.close with closing := false }, _, rfl, fun c => ⟨rfl, rfl, rfl⟩⟩
    · exact ⟨Conn.nextHeader, [], by simp [State.modifyConn, State.setLock], fun c => ⟨rfl, rfl, rfl⟩⟩
  · rename_i h
    refine ⟨id, [], ?_, fun c => ⟨rfl, rfl, rfl⟩⟩
    have : s.conns.modify i id = s.conns := by
      refine List.ext_getElem? fun j => ?_
      by_cases hj : i = j <;> simp [hj]
    simp [State.setLock, this]

/-- A dispatch that is enabled takes the lock, applies its command, and ends if it presented nothing. -/
theorem dispatchStart_of_ready {s : State} {c : Conn} (h : Ready s c) (apply : Nat → State → State) :
    dispatchStart apply s =
      .next (endIfNoOutput s.cur (apply s.cur (s.setLock (.conn s.cur)))) := by
  simp [dispatchStart, connIn_of h.record, h.inDisp, h.lockFree]

/-- A dispatch whose command writes neither records nor output is served in its start step. -/
theorem dispatchStart_served {s t : State} {c : Conn} (h : Ready s c) {apply : Nat → State → State}
    (ht : apply s.cur (s.setLock (.conn s.cur)) = t) (hconns : t.conns = s.conns)
    (hout : t.out = .none) :
    dispatchStart apply s = .next { t with lock := .free, conns := s.conns.set s.cur c.atBoundary } := by
  rw [dispatchStart_of_ready h, ht, endIfNoOutput, if_pos hout,
    dispatchEnd_open (by rw [hconns]; exact h.record) h.notClosing]
  simp [State.putConn, hconns]

/-- What a dispatch can do: nothing (it waits), or take the free lock and apply the command. -/
theorem dispatchStart_cases {apply : Nat → State → State} {s t : State}
    (h : dispatchStart apply s = .next t) :
    t = s ∨ (s.connIn s.cur .disp = true ∧ s.lock = .free ∧
      t = endIfNoOutput s.cur (apply s.cur (s.setLock (.conn s.cur)))) := by
  unfold dispatchStart at h
  split at h
  · rename_i hg
    exact .inr ⟨hg.1, hg.2, by simpa [eq_comm] using h⟩
  · exact .inl (by simpa [eq_comm] using h)

theorem endIfNoOutput_cases (i : Nat) (s : State) :
    endIfNoOutput i s = s ∨ (s.out = .none ∧ endIfNoOutput i s = dispatchEnd i s) := by
  unfold endIfNoOutput
  split
  · rename_i h
    exact .inr ⟨h, rfl⟩
  · exact .inl rfl

theorem controlOp_ready {s : State} (h : s.stbyReq = false) (apply : State → State) :
    controlOp apply s = .next (apply s) := by
  simp [controlOp, h]

theorem controlOp_waiting {s : State} (h : s.stbyReq = true) (apply : State → State) :
    controlOp apply s = .next s := by
  simp [controlOp, h]

/-- The choice of the next move finds the first enabled one. -/
theorem takeFirst_append {ready : Move → Bool} {pre post : List Move} {m : Move}
    (hpre : ∀ m' ∈ pre, ready m' = false) (hm : ready m = true) :
    takeFirst ready (pre ++ m :: post) = some (m, pre ++ post) := by
  induction pre with
  | nil => simp [takeFirst, hm]
  | cons x rest ih =>
    have hx : ready x = false := hpre x (by simp)
    have := ih fun m' h => hpre m' (List.mem_cons_of_mem _ h)
    simp [takeFirst, hx, this]

theorem takeFirst_none {ready : Move → Bool} {moves : List Move}
    (h : ∀ m ∈ moves, ready m = false) : takeFirst ready moves = none := by
  induction moves with
  | nil => rfl
  | cons x rest ih =>
    have hx : ready x = false := h x (by simp)
    simp [takeFirst, hx, ih fun m' hm => h m' (List.mem_cons_of_mem _ hm)]

/-- What the choice answers: an enabled move of the list, and the list without it. -/
theorem takeFirst_some {ready : Move → Bool} {moves rest : List Move} {m : Move}
    (h : takeFirst ready moves = some (m, rest)) :
    ∃ pre post, moves = pre ++ m :: post ∧ rest = pre ++ post ∧ ready m = true ∧
      ∀ m' ∈ pre, ready m' = false := by
  induction moves generalizing rest with
  | nil => simp [takeFirst] at h
  | cons x tail ih =>
    unfold takeFirst at h
    split at h
    · rename_i hx
      obtain ⟨rfl, rfl⟩ : x = m ∧ tail = rest := by simpa using h
      exact ⟨[], tail, rfl, rfl, hx, by simp⟩
    · rename_i hx
      split at h
      · rename_i m' rest' hrest
        obtain ⟨rfl, rfl⟩ : m' = m ∧ x :: rest' = rest := by simpa using h
        obtain ⟨pre, post, h1, h2, h3, h4⟩ := ih hrest
        exact ⟨x :: pre, post, by simp [h1], by simp [h2], h3, by simpa [hx] using h4⟩
      · cases h

/-- A step whose first offered move is enabled takes it. -/
theorem step_head {s : State} {m : Move} {rest : List Move} (hs : s.sched = m :: rest)
    (hm : enabled s m = true) : step s = act m { s with sched := rest } := by
  have := takeFirst_append (ready := enabled s) (pre := []) (post := rest) (by simp) hm
  simp only [List.nil_append] at this
  simp [step, hs, this]

/-- What a step can do: nothing, or one enabled move of the list. -/
theorem step_cases {s t : State} (h : step s = .next t) :
    t = s ∨ ∃ m pre post, s.sched = pre ++ m :: post ∧ enabled s m = true ∧
      act m { s with sched := pre ++ post } = .next t := by
  unfold step at h
  split at h
  · rename_i m rest hm
    obtain ⟨pre, post, h1, rfl, h3, -⟩ := takeFirst_some hm
    exact .inr ⟨m, pre, post, h1, h3, h⟩
  · exact .inl (by simpa [eq_comm] using h)

end Sys2Proof.Machine
end

