-- ==== Sys2Proof/Laws/Exec.lean ====
section
/-! SUPPORT. The meaning of each instruction as the shared operation it is, and the spec lemmas of
LUT_COMPUTE and of the body parser. -/

namespace Sys2Proof.Machine

open Sys2Proof

section
variable (s : State) (ch : Byte) (p : List Byte)

theorem exec_setpix (px : List Pixel) (tr : List Byte) :
    exec (.setpix ch px tr) s = dispatchStart (applySetPixels px) s := rfl

theorem exec_setpixNoop : exec (.setpixNoop ch p) s = dispatchStart (fun _ s => s) s := rfl

theorem exec_sysexShort :
    exec (.sysexShort ch p) s = dispatchStart (applyUnknownDevice 0 0) s := rfl

theorem exec_sysexFwflags : exec (.sysexFwflags ch p) s = dispatchStart (applyFwFlags p) s := rfl

theorem exec_sysexExtUnrec (cid : U16) :
    exec (.sysexExtUnrec ch cid p) s =
      dispatchStart (fun i s => s.emit (connEvent .sysexUnknownExtension i [.num cid.toNat])) s := rfl

theorem exec_sysexDevUnrec (sid cid : U16) :
    exec (.sysexDevUnrec ch sid cid p) s = dispatchStart (applyUnknownDevice sid cid) s := rfl

theorem exec_unknown (raw : Byte) :
    exec (.unknown ch raw p) s =
      dispatchStart (fun i s => s.emit (connEvent .unknownCommand i [.num raw.toNat])) s := rfl

theorem exec_ctrlStart : exec .ctrlStart s = controlOp startOp s := rfl

theorem exec_ctrlStop : exec .ctrlStop s = controlOp stopOp s := rfl

theorem exec_ctrlStandbyOn : exec .ctrlStandbyOn s = controlOp standbyOnOp s := rfl

theorem exec_ctrlStandbyOff : exec .ctrlStandbyOff s = controlOp standbyOffOp s := rfl

theorem exec_ctrlIllegal (code : Byte) :
    exec (.ctrlIllegal code) s = controlOp (fun s =>
      (s.emit (portEvent .ctrlIllegal [.num code.toNat])).respond .illegal) s := rfl

theorem exec_sysexCc_suppressed (h : s.connIn s.cur .disp = true) (hl : s.lock = .standby) :
    exec (.sysexCc ch p) s = .next (ccSuppress p s) := by
  simp [exec, execSysexCc, h, hl]

theorem exec_sysexCc_dispatched (hl : s.lock ≠ .standby) :
    exec (.sysexCc ch p) s = dispatchStart (applyColourCorrection p) s := by
  simp [exec, execSysexCc, hl]

end

/-- A command that only reports is served with its one event. -/
theorem served_of_emit {s : State} {c : Conn} (h : Ready s c) {apply : Nat → State → State}
    {e : EventRec} (ha : apply s.cur (s.setLock (.conn s.cur)) = (s.setLock (.conn s.cur)).emit e) :
    dispatchStart apply s = .next (s.servedWith c [e]) := by
  rw [dispatchStart_served h ha rfl h.noOutput]
  simp [State.servedWith, State.putConn, h.lockFree, State.setLock, State.emit]

theorem f64IsFinite_eq (v : B64) : f64IsFinite v = !(f64IsNaN v || f64IsInf v) := by
  unfold f64IsFinite f64IsNaN f64IsInf
  by_cases h : f64Exp v = 2047 <;> by_cases h2 : f64Frac v = 0 <;> simp [h, h2]

theorem whitepointsLegal_iff {p : CcParams} : whitepointsLegal p ↔
    f64IsFinite p.wp0 = true ∧ f64IsFinite p.wp1 = true ∧ f64IsFinite p.wp2 = true := by
  refine ⟨fun h => ⟨h 0, h 1, h 2⟩, fun h k => ?_⟩
  fin_cases k
  · exact h.1
  · exact h.2.1
  · exact h.2.2

/-- LUT_COMPUTE's checks pass exactly on legal parameters (R142). -/
theorem paramError_none_iff {p : CcParams} :
    paramError p = none ↔ gammaLegal p.gamma ∧ whitepointsLegal p := by
  unfold paramError gammaLegal
  simp only [whitepointsLegal_iff, f64IsFinite_eq]
  generalize (f64IsNaN p.gamma || f64IsInf p.gamma) = bg
  generalize f64IsNonPos p.gamma = np
  generalize (f64IsNaN p.wp0 || f64IsInf p.wp0) = b0
  generalize (f64IsNaN p.wp1 || f64IsInf p.wp1) = b1
  generalize (f64IsNaN p.wp2 || f64IsInf p.wp2) = b2
  cases bg <;> cases np <;> cases b0 <;> cases b1 <;> cases b2 <;> simp

theorem lutCompute_ok {p : CcParams} (h : paramError p = none) (i : Nat) (s : State) :
    lutCompute i p s = (.ok, { s with params := p, lut := lutTable s.cfg.roundTie p }) := by
  simp [lutCompute, h]

theorem lutCompute_fail {p : CcParams} {e : EventCode × InfoVal} (h : paramError p = some e)
    (i : Nat) (s : State) : lutCompute i p s = (.fail, s.emit (connEvent e.1 i [e.2])) := by
  simp [lutCompute, h]

/-- What a colour correction can do: report one error, or replace the parameters and the table and
present the notification to an attached consumer. -/
theorem applyColourCorrection_cases (body : List Byte) (i : Nat) (s : State) :
    (∃ e, applyColourCorrection body i s = s.emit e) ∨
    ∃ p, ccParse body = some p ∧ paramError p = none ∧
      (applyColourCorrection body i s = { s with params := p, lut := lutTable s.cfg.roundTie p } ∨
       applyColourCorrection body i s =
        { s with params := p, lut := lutTable s.cfg.roundTie p, out := .cc p }) := by
  unfold applyColourCorrection
  cases hp : ccParse body with
  | none => exact .inl ⟨_, rfl⟩
  | some p =>
    cases he : paramError p with
    | some e => exact .inl ⟨_, by simp only [lutCompute_fail he]; rfl⟩
    | none =>
      refine .inr ⟨p, rfl, he, ?_⟩
      simp only [lutCompute_ok he]
      split
      · exact .inr rfl
      · exact .inl rfl

theorem lutRow_get (tie : RoundTie) (g w : B64) (i : Byte) :
    tableEntry (lutRow tie g w) i = lutEntry tie i g w := by
  unfold tableEntry lutRow
  rw [Vector.getElem_ofFn]
  congr 1
  exact BitVec.ofNat_toNat .. |>.trans (by simp)

theorem lutTable_entry (tie : RoundTie) (p : CcParams) (k : Fin 3) (i : Byte) :
    (lutTable tie p).entry k i = lutEntry tie i p.gamma (whitepoint p k) := by
  fin_cases k <;> exact lutRow_get tie _ _ i

/-- No two entries share an address, and none lies in the part that is not the table (R51). -/
theorem lutAddr_toNat (k : Fin 3) (i : Byte) : (lutAddr k i).toNat = 256 * k.val + i.toNat := by
  unfold lutAddr
  rw [BitVec.toNat_append, ← Nat.shiftLeft_add_eq_or_of_lt i.isLt, Nat.shiftLeft_eq]
  simp only [BitVec.toNat_ofNat]
  have := k.isLt
  omega

theorem identityRow_get (i : Byte) : tableEntry identityRow i = i := by
  simp [tableEntry, identityRow]

end Sys2Proof.Machine
end

