-- ==== Sys2Proof/Laws/Dispatch.lean ====
section
/-! SUPPORT. What a dispatch can do, said once for all frame instructions: the command each applies,
what the commands leave alone, and what is left of the state when the dispatch has started or ended. -/

namespace Sys2Proof.Machine

open Sys2Proof

/-- The command a frame instruction applies under the lock (R212 to R218); a control operation none. -/
def commandOf : Instr → Nat → State → State
  | .setpix _ px _ => applySetPixels px
  | .setpixNoop _ _ => fun _ s => s
  | .sysexShort _ _ => applyUnknownDevice 0 0
  | .sysexCc _ body => applyColourCorrection body
  | .sysexFwflags _ body => applyFwFlags body
  | .sysexExtUnrec _ c _ => fun i s => s.emit (connEvent .sysexUnknownExtension i [.num c.toNat])
  | .sysexDevUnrec _ sid cid _ => applyUnknownDevice sid cid
  | .unknown _ raw _ => fun i s => s.emit (connEvent .unknownCommand i [.num raw.toNat])
  | .ctrlStart => fun _ s => s
  | .ctrlStop => fun _ s => s
  | .ctrlStandbyOn => fun _ s => s
  | .ctrlStandbyOff => fun _ s => s
  | .ctrlIllegal _ => fun _ s => s

/-- A frame instruction is the dispatch of its command, except a colour correction in standby. -/
theorem exec_wire {i : Instr} (hi : i.port = .wire) {s : State}
    (h : isColourCorrection i = false ∨ s.lock ≠ .standby) :
    exec i s = dispatchStart (commandOf i) s := by
  cases i
  case sysexCc ch body => exact exec_sysexCc_dispatched s ch body (h.resolve_left (by simp [isColourCorrection]))
  all_goals first
    | rfl
    | cases hi

theorem isColourCorrection_iff {i : Instr} :
    isColourCorrection i = true ↔ ∃ ch body, i = .sysexCc ch body := by
  cases i <;> simp [isColourCorrection]

/-- What no command touches. -/
structure CommandFrame (s u : State) : Prop where
  run : u.run = s.run
  conns : u.conns = s.conns
  lock : u.lock = s.lock
  stbyReq : u.stbyReq = s.stbyReq
  resps : u.resps = s.resps
  cfg : u.cfg = s.cfg
  cur : u.cur = s.cur
  sched : u.sched = s.sched
  events : ∃ es, u.events = s.events ++ es

theorem CommandFrame.refl (s : State) : CommandFrame s s :=
  ⟨rfl, rfl, rfl, rfl, rfl, rfl, rfl, rfl, [], by simp⟩

theorem CommandFrame.emit (s : State) (e : EventRec) : CommandFrame s (s.emit e) :=
  ⟨rfl, rfl, rfl, rfl, rfl, rfl, rfl, rfl, [e], rfl⟩

theorem commandOf_frame (i : Instr) (n : Nat) (s : State) : CommandFrame s (commandOf i n s) := by
  cases i
  case setpix ch px tr =>
    simp only [commandOf, applySetPixels]
    split
    · exact ⟨rfl, rfl, rfl, rfl, rfl, rfl, rfl, rfl, [], by simp⟩
    · exact .refl s
  case sysexCc ch body =>
    simp only [commandOf]
    rcases applyColourCorrection_cases body n s with ⟨e, h⟩ | ⟨p, -, -, h | h⟩ <;> rw [h]
    · exact .emit s e
    · exact ⟨rfl, rfl, rfl, rfl, rfl, rfl, rfl, rfl, [], by simp⟩
    · exact ⟨rfl, rfl, rfl, rfl, rfl, rfl, rfl, rfl, [], by simp⟩
  case sysexFwflags ch body =>
    cases body
    · exact .emit s _
    · exact ⟨rfl, rfl, rfl, rfl, rfl, rfl, rfl, rfl, [], by simp [commandOf, applyFwFlags]⟩
  all_goals first
    | exact .refl s
    | exact .emit s _

/-- Only a colour correction whose body parses writes the parameters and the table (R31, R32). -/
theorem commandOf_params (i : Instr) (n : Nat) (s : State) :
    ((commandOf i n s).params = s.params ∧ (commandOf i n s).lut = s.lut) ∨
    ∃ ch body p, i = .sysexCc ch body ∧ ccParse body = some p ∧ paramError p = none ∧
      (commandOf i n s).params = p ∧ (commandOf i n s).lut = lutTable s.cfg.roundTie p ∧
      (commandOf i n s).events = s.events := by
  cases i
  case setpix ch px tr =>
    simp only [commandOf, applySetPixels]
    split <;> exact .inl ⟨rfl, rfl⟩
  case sysexCc ch body =>
    simp only [commandOf]
    rcases applyColourCorrection_cases body n s with ⟨e, h⟩ | ⟨p, h1, h2, h | h⟩ <;> rw [h]
    · exact .inl ⟨rfl, rfl⟩
    · exact .inr ⟨ch, body, p, rfl, h1, h2, rfl, rfl, rfl⟩
    · exact .inr ⟨ch, body, p, rfl, h1, h2, rfl, rfl, rfl⟩
  case sysexFwflags ch body => cases body <;> exact .inl ⟨rfl, rfl⟩
  all_goals exact .inl ⟨rfl, rfl⟩

/-- Only a firmware-flag sysEx with a body writes the flags (R33). -/
theorem commandOf_fw (i : Instr) (n : Nat) (s : State) :
    (commandOf i n s).fw = s.fw ∨
    ∃ ch b more, i = .sysexFwflags ch (b :: more) ∧ (commandOf i n s).fw = fwOfByte b ∧
      (commandOf i n s).events = s.events := by
  cases i
  case setpix ch px tr =>
    simp only [commandOf, applySetPixels]
    split <;> exact .inl rfl
  case sysexCc ch body =>
    simp only [commandOf]
    rcases applyColourCorrection_cases body n s with ⟨e, h⟩ | ⟨p, h1, h2, h | h⟩ <;> rw [h] <;>
      exact .inl rfl
  case sysexFwflags ch body =>
    cases body with
    | nil => exact .inl rfl
    | cons b more => exact .inr ⟨ch, b, more, rfl, rfl, rfl⟩
  all_goals exact .inl rfl

/-- What an ended or open dispatch leaves of the state its command made: the lock freed or not, the
record's framer fields, at most one event. -/
theorem endIfNoOutput_spec (i : Nat) (s : State) :
    ∃ f es l, endIfNoOutput i s =
        { s with lock := l, conns := s.conns.modify i f, events := s.events ++ es } ∧
      ∀ c, (f c).hb = c.hb ∧ (f c).len = c.len ∧ (f c).pb = c.pb := by
  rcases endIfNoOutput_cases i s with h | ⟨-, h⟩
  · refine ⟨id, [], s.lock, ?_, fun c => ⟨rfl, rfl, rfl⟩⟩
    have hid : s.conns.modify i id = s.conns := by
      refine List.ext_getElem? fun j => ?_
      by_cases hj : i = j <;> simp [hj]
    simp [h, hid]
  · obtain ⟨f, es, he, hf⟩ := dispatchEnd_cases i s
    exact ⟨f, es, .free, by rw [h, he], hf⟩

/-- What the dispatch of a frame instruction can do: wait, or apply its command under the lock, after
which only the lock, the served record's framer fields and the events can still differ. -/
theorem dispatch_spec {i : Instr} {s t : State} (h : dispatchStart (commandOf i) s = .next t) :
    t = s ∨ (s.connIn s.cur .disp = true ∧ s.lock = .free ∧
      ∃ u f es l, u = commandOf i s.cur (s.setLock (.conn s.cur)) ∧
        t = { u with lock := l, conns := s.conns.modify s.cur f, events := u.events ++ es } ∧
        ∀ c, (f c).hb = c.hb ∧ (f c).len = c.len ∧ (f c).pb = c.pb) := by
  rcases dispatchStart_cases h with rfl | ⟨hd, hl, rfl⟩
  · exact .inl rfl
  · obtain ⟨f, es, l, he, hf⟩ := endIfNoOutput_spec s.cur (commandOf i s.cur (s.setLock (.conn s.cur)))
    refine .inr ⟨hd, hl, _, f, es, l, rfl, ?_, hf⟩
    rw [he, (commandOf_frame i s.cur (s.setLock (.conn s.cur))).conns]
    rfl

/-- CC_SUPPRESS writes its record and one event (R219). -/
theorem ccSuppress_spec (body : List Byte) (s : State) : ∃ e, ccSuppress body s =
    { s with conns := s.conns.modify s.cur Conn.nextHeader, events := s.events ++ [e] } := by
  unfold ccSuppress
  split <;> exact ⟨_, rfl⟩

/-- What a frame instruction can do, in standby too. -/
theorem exec_wire_cases {i : Instr} (hi : i.port = .wire) {s t : State} (h : exec i s = .next t) :
    dispatchStart (commandOf i) s = .next t ∨
    (∃ ch body e, i = .sysexCc ch body ∧ s.lock = .standby ∧ s.connIn s.cur .disp = true ∧
      t = { s with conns := s.conns.modify s.cur Conn.nextHeader, events := s.events ++ [e] }) := by
  by_cases hc : isColourCorrection i = true
  · obtain ⟨ch, body, rfl⟩ := isColourCorrection_iff.mp hc
    simp only [exec, execSysexCc] at h
    split at h
    · rename_i hg
      obtain ⟨e, he⟩ := ccSuppress_spec body s
      exact .inr ⟨ch, body, e, rfl, hg.2, hg.1, by simpa [he, eq_comm] using h⟩
    · exact .inl h
  · exact .inl (by rw [← exec_wire hi (.inl (by simpa using hc))]; exact h)

/-- What a control operation can do: wait, or its effect. -/
theorem controlOp_cases {apply : State → State} {s t : State} (h : controlOp apply s = .next t) :
    t = s ∨ (s.stbyReq = false ∧ t = apply s) := by
  unfold controlOp at h
  split at h
  · exact .inl (by simpa [eq_comm] using h)
  · rename_i hr
    exact .inr ⟨by simpa using hr, by simpa [eq_comm] using h⟩

/-! STOP, record by record (R183). -/

theorem stopConns_length (l : Lock) (cs : List Conn) : ∀ k, (stopConns l k cs).length = cs.length := by
  induction cs with
  | nil => intro k; rfl
  | cons c rest ih => intro k; simp [stopConns, ih]

theorem stopConns_get (l : Lock) (cs : List Conn) : ∀ k i,
    (stopConns l k cs)[i]? = cs[i]?.map (stopConn (decide (l = .conn (k + i)))) := by
  induction cs with
  | nil => intro k i; simp [stopConns]
  | cons c rest ih =>
    intro k i
    cases i with
    | zero => simp [stopConns]
    | succ i => simp [stopConns, ih, Nat.add_assoc, Nat.add_comm 1 i]

theorem stopConn_eq (b : Bool) (c : Conn) : stopConn b c =
    if b then { c with closing := true } else if c.fsm = .closed then c else c.shut := by
  cases b <;> by_cases h : c.fsm = .closed <;> simp [stopConn, stopCloses, h, close_eq_shut]

/-- The events of STOP are those of the records it closes, in slot order. -/
theorem stopEvents_eq (l : Lock) (cs : List Conn) : ∀ k, stopEvents l k cs =
    ((cs.zipIdx k).filter fun x => decide (l ≠ .conn x.2) && decide (x.1.fsm ≠ .closed)).map fun x =>
      ⟨.connAbortedStop, some (BitVec.ofNat 8 x.2), [.fsm x.1.fsm, .num x.1.hcount, .num x.1.pcount]⟩ := by
  induction cs with
  | nil => intro k; rfl
  | cons c rest ih =>
    intro k
    simp only [stopEvents, ih, List.zipIdx_cons, List.filter_cons, stopCloses]
    by_cases h1 : l = .conn k <;> by_cases h2 : c.fsm = .closed <;> simp [h1, h2, connEvent]

end Sys2Proof.Machine
end

