-- ==== Sys2Proof/Laws/Memory.lean ====
section
/-! SUPPORT. The payload memory: read after write, other offsets untouched, the canonical form kept. -/

namespace Sys2Proof.Machine

open Sys2Proof

@[simp] theorem Memory.read_nil (a : Nat) : Memory.read [] a = none := rfl

theorem Memory.read_write_same (m : Memory) (a : Nat) (b : Byte) : (m.write a b).read a = some b := by
  induction m with
  | nil => simp [Memory.write, Memory.read]
  | cons x rest ih =>
    obtain ⟨x, v⟩ := x
    unfold Memory.write
    split
    · simp [Memory.read]
    · split
      · simp [Memory.read]
      · rename_i h
        simp [Memory.read, Ne.symm h, ih]

theorem Memory.read_write_other (m : Memory) {a a' : Nat} (b : Byte) (h : a' ≠ a) :
    (m.write a b).read a' = m.read a' := by
  induction m with
  | nil => simp [Memory.write, Memory.read, Ne.symm h]
  | cons x rest ih =>
    obtain ⟨x, v⟩ := x
    unfold Memory.write
    split
    · simp [Memory.read, Ne.symm h]
    · split
      · rename_i hx
        subst hx
        simp [Memory.read, Ne.symm h]
      · simp [Memory.read, ih]

/-- An offset a write lists is the written one or was listed before. -/
theorem Memory.mem_write {m : Memory} {a : Nat} {b : Byte} {x : Host.Cell} (h : x ∈ m.write a b) :
    x = (a, b) ∨ x ∈ m := by
  induction m with
  | nil => simpa [Memory.write] using h
  | cons y rest ih =>
    obtain ⟨y, v⟩ := y
    unfold Memory.write at h
    split at h
    · simpa using h
    · split at h
      · rcases List.mem_cons.mp h with h | h
        · exact .inl h
        · exact .inr (List.mem_cons_of_mem _ h)
      · rcases List.mem_cons.mp h with h | h
        · exact .inr (by simp [h])
        · exact (ih h).imp id (List.mem_cons_of_mem _)

/-- A write at an offset the buffer has keeps the canonical form. -/
theorem Memory.wf_write {m : Memory} (hm : m.wf) {a : Nat} (b : Byte) (ha : a < Config.payloadSize) :
    (m.write a b).wf := by
  obtain ⟨hs, hb⟩ := hm
  refine ⟨?_, fun x hx => ?_⟩
  · clear hb
    induction m with
    | nil => simp [Memory.write]
    | cons y rest ih =>
      obtain ⟨y, v⟩ := y
      obtain ⟨hy, hr⟩ := List.pairwise_cons.mp hs
      unfold Memory.write
      split
      · rename_i h
        refine List.pairwise_cons.mpr ⟨fun z hz => ?_, hs⟩
        rcases List.mem_cons.mp hz with rfl | hz
        · exact h
        · exact Nat.lt_trans h (hy z hz)
      · split
        · rename_i h
          subst h
          exact List.pairwise_cons.mpr ⟨hy, hr⟩
        · rename_i h1 h2
          refine List.pairwise_cons.mpr ⟨fun z hz => ?_, ih hr⟩
          rcases Memory.mem_write hz with rfl | hz
          · exact Nat.lt_of_le_of_ne (Nat.le_of_not_lt h1) (Ne.symm h2)
          · exact hy z hz
  · rcases Memory.mem_write hx with rfl | hx
    · exact ha
    · exact hb x hx

theorem Memory.wf_nil : Memory.wf [] := by simp [Memory.wf]

/-- Memory after reset is in canonical form. -/
theorem reset_memory_wf : ∀ c ∈ State.reset.conns, c.pb.wf := by
  intro c hc
  obtain ⟨-, rfl⟩ := List.mem_replicate.mp hc
  exact Memory.wf_nil

/-- A range reads back as the list of its bytes. -/
theorem Memory.readRange_eq_some {m : Memory} {n : Nat} : ∀ {a : Nat} {bytes : List Byte},
    bytes.length = n → (∀ k, k < n → m.read (a + k) = bytes[k]?) → m.readRange a n = some bytes := by
  induction n with
  | zero =>
    intro a bytes hl _
    simp [List.length_eq_zero_iff.mp hl, Memory.readRange]
  | succ n ih =>
    intro a bytes hl h
    obtain ⟨b, bs, rfl⟩ := List.exists_cons_of_length_eq_add_one hl
    have h0 : m.read a = some b := by simpa using h 0 (Nat.succ_pos n)
    have hr : m.readRange (a + 1) n = some bs := by
      refine ih (by simpa using hl) fun k hk => ?_
      have := h (k + 1) (Nat.succ_lt_succ hk)
      simpa [Nat.add_assoc, Nat.add_comm 1 k] using this
    simp [Memory.readRange, h0, hr]

/-- A range in which every byte was written reads as some list of its length. -/
theorem Memory.readRange_isSome {m : Memory} {n : Nat} : ∀ {a : Nat},
    (∀ k, k < n → (m.read (a + k)).isSome = true) →
    ∃ bytes, m.readRange a n = some bytes ∧ bytes.length = n := by
  induction n with
  | zero => intro a _; exact ⟨[], rfl, rfl⟩
  | succ n ih =>
    intro a h
    obtain ⟨b, hb⟩ := Option.isSome_iff_exists.mp (h 0 (Nat.succ_pos n))
    obtain ⟨bs, hbs, hl⟩ := ih (a := a + 1) fun k hk => by
      have := h (k + 1) (Nat.succ_lt_succ hk)
      simpa [Nat.add_assoc, Nat.add_comm 1 k] using this
    exact ⟨b :: bs, by simp only [Nat.add_zero] at hb; simp [Memory.readRange, hb, hbs], by simp [hl]⟩

theorem Memory.readRange_length {m : Memory} {n : Nat} : ∀ {a : Nat} {bytes : List Byte},
    m.readRange a n = some bytes → bytes.length = n := by
  induction n with
  | zero =>
    intro a bytes h
    have : bytes = [] := by simpa [Memory.readRange, eq_comm] using h
    simp [this]
  | succ n ih =>
    intro a bytes h
    unfold Memory.readRange at h
    split at h
    · rename_i b bs hb hbs
      have : bytes = b :: bs := by simpa [eq_comm] using h
      simp [this, ih hbs]
    · cases h

end Sys2Proof.Machine
end

