-- ==== Sys2Proof/Laws/Framer.lean ====
section
/-! SUPPORT. What a framer step, a served connection and an acknowledge can do, said once; runs of
steps; the invariant of the block moved to a state that keeps the fields it reads. -/

namespace Sys2Proof.Machine

open Sys2Proof

/-- A step with one more step after it. -/
theorem run_succ {s t : State} (h : step s = .next t) (k : Nat) :
    Host.Core.run Sys2Proof.core (k + 1) s = Host.Core.run Sys2Proof.core k t := by
  have h : Host.Core.step Sys2Proof.core s = .next t := h
  simp only [Host.Core.run, h]

theorem putConn_putConn (s : State) (i : Nat) (c c' : Conn) (r r' : List Move) :
    { ({ s.putConn i c with sched := r } : State).putConn i c' with sched := r' } =
      { s.putConn i c' with sched := r' } := by
  simp [State.putConn, List.set_set]

theorem putConn_get {s : State} {i : Nat} {c : Conn} (hc : s.conns[i]? = some c) (c' : Conn) :
    (s.putConn i c').conns[i]? = some c' := by
  obtain ⟨hi, -⟩ := List.getElem?_eq_some_iff.mp hc
  simp [State.putConn, hi]

/-- RX_BYTE offered first to a reading connection is the step on its record. -/
theorem step_rxByte {s : State} {rest : List Move} {i : Nat} {b : Byte} {c c' : Conn}
    (hs : s.sched = .rxByte i b :: rest) (hc : s.conns[i]? = some c) (hf : c.fsm = .hdr ∨ c.fsm = .pay)
    (h : rxByteConn b c = .ok c') : step s = .next { s.putConn i c' with sched := rest } := by
  rw [step_head hs (by rcases hf with hf | hf <;> simp [enabled, connIn_of hc, hf])]
  simp only [act, rxByte, hc, h]
  rw [modifyConn_eq_putConn (c := c) (by simpa using hc)]
  rfl

/-- A framer step writes its connection's record and the event output, nothing else (R180). -/
theorem act_framer {s t : State} {m : Move} {i : Nat} {b : Byte}
    (hm : m = .connOpen i ∨ m = .rxByte i b ∨ m = .rxEof i ∨ m = .rxTimeout i)
    (h : act m s = .next t) :
    ∃ f es, t = { s with conns := s.conns.modify i f, events := s.events ++ es } := by
  have same : s = { s with conns := s.conns.modify i id, events := s.events ++ [] } := by
    simp
  rcases hm with rfl | rfl | rfl | rfl
  · cases h
    exact ⟨Conn.opened, [], by simp [connOpen, State.modifyConn]⟩
  · simp only [act, rxByte] at h
    split at h
    · cases h
      exact ⟨_, _, same⟩
    · split at h
      · rename_i c' hc'
        cases h
        exact ⟨fun _ => c', [], by simp [State.modifyConn]⟩
      · cases h
  · cases h
    unfold rxEof
    split
    · exact ⟨_, _, same⟩
    · split
      · exact ⟨Conn.close, [_], rfl⟩
      · exact ⟨_, _, same⟩
  · cases h
    unfold rxTimeout
    split
    · exact ⟨_, _, same⟩
    · split
      · exact ⟨Conn.close, [_], rfl⟩
      · exact ⟨_, _, same⟩

/-- Serving a connection does nothing, or runs the instruction of its latch. -/
theorem serve_cases {i : Nat} {s t : State} (h : serve i s = .next t) :
    t = s ∨ ∃ c ins, s.conns[i]? = some c ∧ c.cmd = some ins ∧ exec ins { s with cur := i } = .next t := by
  unfold serve at h
  split at h
  · exact .inl (by simpa [eq_comm] using h)
  · rename_i c hc
    split at h
    · exact .inl (by simpa [eq_comm] using h)
    · rename_i ins hi
      exact .inr ⟨c, ins, hc, hi, h⟩

/-- An acknowledge ends the dispatch that holds the lock (R221). -/
theorem consAck_cases {s t : State} (h : act .consAck s = .next t) :
    ∃ i, s.lock = .conn i ∧ t = dispatchEnd i (s.present .none) := by
  simp only [act, consAck] at h
  split at h
  · rename_i i hi
    cases h
    exact ⟨i, hi, rfl⟩
  · cases h
  · cases h

/-- Which moves are enabled does not depend on what else is offered. -/
theorem enabled_sched (s : State) (r : List Move) (m : Move) :
    enabled { s with sched := r } m = enabled s m := by
  cases m <;> rfl

/-- The invariant reads eight fields only. -/
theorem BlockInv.of_same {s t : State} (h : BlockInv s) (h1 : t.run = s.run) (h2 : t.conns = s.conns)
    (h3 : t.lock = s.lock) (h4 : t.stbyReq = s.stbyReq) (h5 : t.params = s.params)
    (h6 : t.lut = s.lut) (h7 : t.out = s.out) (h8 : t.cfg = s.cfg) : BlockInv t := by
  obtain ⟨a1, a2, a3, a4, a5, a6, a7, a8, a9, a10⟩ := h
  refine ⟨by rwa [h2], by rwa [h2, h3], fun i hi => ?_, by rwa [h7, h3], by rwa [h4, h3], by rwa [h5],
    by rwa [h5], by rwa [h6, h5, h8], by rwa [h1, h2], by rwa [h1, h2]⟩
  have := a3 i (by rwa [← h3])
  rwa [h7, State.connIn, h2]

/-- A record's invariant depends on the lock through `closing` only. -/
theorem ConnInv.of_lock {l l' : Lock} {i : Nat} {c : Conn} (h : ConnInv l i c)
    (hl : c.closing = true → l' = .conn i) : ConnInv l' i c :=
  ⟨h.buffer, hl, h.closedForm, h.hdrForm, h.payForm, h.dispForm⟩

theorem ConnInv.reset (l : Lock) (i : Nat) : ConnInv l i Conn.reset :=
  ⟨Memory.wf_nil, by simp [Conn.reset], by simp [Conn.reset], by simp [Conn.reset],
    by simp [Conn.reset], by simp [Conn.reset]⟩

theorem ConnInv.close {l : Lock} {i : Nat} {c : Conn} (h : ConnInv l i c) : ConnInv l i c.close :=
  ⟨h.buffer, h.closing, by simp, by simp, by simp, by simp⟩

/-- A latch that holds an instruction is in DISP, and what it holds came from the decoder (R26). -/
theorem ConnInv.latched {l : Lock} {i : Nat} {c : Conn} (h : ConnInv l i c) {ins : Instr}
    (hi : c.cmd = some ins) : c.fsm = .disp ∧ ∃ p, ins = decodePayload c.hb p := by
  have hf : c.fsm = .disp := by
    cases hf : c.fsm with
    | closed => simp [(h.closedForm hf).2.2] at hi
    | hdr => simp [(h.hdrForm hf).2.2] at hi
    | pay => simp [(h.payForm hf).2.2.2.1] at hi
    | disp => rfl
  obtain ⟨-, -, -, p, -, hp⟩ := h.dispForm hf
  rw [hi] at hp
  exact ⟨hf, p, Option.some.inj hp⟩

/-- The decode step succeeds on a complete payload and leaves a record of the invariant (R174). -/
theorem payloadComplete_ok {l : Lock} {i : Nat} {c : Conn} (hb : c.pb.wf)
    (hcl : c.closing = true → l = .conn i) (h4 : c.hcount = 4) (hl : c.len = c.hb.length)
    (hp : c.pcount = c.len.toNat) (hr : ∀ a, a < c.pcount → (c.pb.read a).isSome = true) :
    ∃ c', payloadComplete c = .ok c' ∧ ConnInv l i c' := by
  obtain ⟨bytes, hbs, -⟩ := Memory.readRange_isSome (m := c.pb) (n := c.len.toNat) (a := 0)
    (by intro k hk; rw [Nat.zero_add]; exact hr k (by omega))
  have hbs : c.payload = some bytes := hbs
  refine ⟨{ c with cmd := some (decodePayload c.hb bytes), fsm := .disp },
    by simp [payloadComplete, hbs], hb, hcl, by simp, by simp, by simp, fun _ => ?_⟩
  exact ⟨h4, hl, hp, bytes, hbs, rfl⟩

/-- RX_BYTE succeeds on a reading record and keeps its invariant (R171 to R174). -/
theorem rxByteConn_ok {l : Lock} {i : Nat} {c : Conn} (b : Byte) (h : ConnInv l i c)
    (hf : c.fsm = .hdr ∨ c.fsm = .pay) : ∃ c', rxByteConn b c = .ok c' ∧ ConnInv l i c' := by
  rcases hf with hf | hf
  · obtain ⟨h1, h2, h3⟩ := h.hdrForm hf
    simp only [rxByteConn, hf, rxHeaderByte]
    split
    · rename_i h4
      unfold headerComplete
      simp only
      split
      · rename_i hl
        exact payloadComplete_ok
          (c := { c with
            hb := setHeaderByte c.hb c.hcount b, hcount := c.hcount + 1, len := _, pcount := 0 })
          h.buffer h.closing h4 rfl (by simp [hl]) (by simp)
      · rename_i hl
        refine ⟨_, rfl, h.buffer, h.closing, by simp, by simp, fun _ => ⟨h4, rfl, ?_, h3, by simp⟩,
          by simp⟩
        exact Nat.pos_of_ne_zero fun hz => hl (BitVec.eq_of_toNat_eq (by simpa using hz))
    · rename_i h4
      refine ⟨_, rfl, h.buffer, h.closing, by simp, fun _ => ?_, by simp, by simp⟩
      exact ⟨by simp only; omega, h2, h3⟩
  · obtain ⟨h1, h2, h3, h4, h5⟩ := h.payForm hf
    have hb : c.pcount < Config.payloadSize := by
      have := c.len.isLt
      simp only [Config.payloadSize]
      omega
    have hread : ∀ a, a < c.pcount + 1 → ((c.pb.write c.pcount b).read a).isSome = true := by
      intro a ha
      by_cases hap : a = c.pcount
      · subst hap
        simp [Memory.read_write_same]
      · rw [Memory.read_write_other _ _ hap]
        exact h5 a (by omega)
    simp only [rxByteConn, hf, rxPayloadByte, if_pos hb]
    split
    · rename_i he
      exact payloadComplete_ok
        (c := { c with pb := c.pb.write c.pcount b, pcount := c.pcount + 1 })
        (Memory.wf_write h.buffer _ hb) h.closing h1 h2 he hread
    · rename_i he
      refine ⟨_, rfl, Memory.wf_write h.buffer _ hb, h.closing, by simp, by simp, fun _ => ?_,
        by simp⟩
      exact ⟨h1, h2, by simp only; omega, h4, hread⟩

end Sys2Proof.Machine
end

