-- ==== Sys2Proof/Laws/Events.lean ====
section
/-! SUPPORT. Which event records the operations append: their connection and the range of their codes
(60_exceptions.md R240, R241). A proof about the event output cites these and unfolds no operation. -/

namespace Sys2Proof.Machine

open Sys2Proof

/-- `t` has the events of `s` with records of the kind `Q` after them. -/
def Appends (Q : EventRec → Prop) (s t : State) : Prop :=
  ∃ es, t.events = s.events ++ es ∧ ∀ e ∈ es, Q e

theorem Appends.of_eq {Q : EventRec → Prop} {s t : State} (h : t.events = s.events) : Appends Q s t :=
  ⟨[], by simp [h], by simp⟩

theorem Appends.one {Q : EventRec → Prop} {s t : State} {e : EventRec} (h : t.events = s.events ++ [e])
    (q : Q e) : Appends Q s t := ⟨[e], h, by simpa⟩

theorem Appends.trans {Q : EventRec → Prop} {s t u : State} (h : Appends Q s t) (h' : Appends Q t u) :
    Appends Q s u := by
  obtain ⟨a, ha, qa⟩ := h
  obtain ⟨b, hb, qb⟩ := h'
  exact ⟨a ++ b, by simp [hb, ha], fun e he => (List.mem_append.mp he).elim (qa e) (qb e)⟩

theorem Appends.mono {Q R : EventRec → Prop} {s t : State} (h : Appends Q s t) (q : ∀ e, Q e → R e) :
    Appends R s t := by
  obtain ⟨es, hes, he⟩ := h
  exact ⟨es, hes, fun e hm => q e (he e hm)⟩

/-- The records appended are determined by the two event outputs. -/
theorem Appends.mem {Q : EventRec → Prop} {s t : State} (h : Appends Q s t) {es : List EventRec}
    (hes : t.events = s.events ++ es) : ∀ e ∈ es, Q e := by
  obtain ⟨a, ha, qa⟩ := h
  rw [ha] at hes
  exact List.append_cancel_left hes ▸ qa

/-- A record about connection `i`: its code is below 0x31. -/
def OfConn (i : Nat) (e : EventRec) : Prop :=
  e.conn = some (BitVec.ofNat 8 i) ∧ e.code.toByte.toNat < 0x31

theorem ofConn_connEvent {code : EventCode} (h : code.toByte.toNat < 0x31) (i : Nat) (info : List InfoVal) :
    OfConn i (connEvent code i info) := ⟨rfl, h⟩

/-- A STOP in between gives the one event of a dispatch's end (R222). -/
theorem dispatchEnd_appends (i : Nat) (s : State) : Appends (OfConn i) s (dispatchEnd i s) := by
  unfold dispatchEnd
  split
  · split
    · exact .one rfl (ofConn_connEvent (by decide) i _)
    · exact .of_eq rfl
  · exact .of_eq rfl

/-- The codes of LUT_COMPUTE (R142). -/
theorem paramError_code {p : CcParams} {e : EventCode × InfoVal} (h : paramError p = some e) :
    e.1 = .invalidGamma ∨ e.1 = .invalidWhitepoint := by
  revert h
  unfold paramError
  repeat' split
  all_goals
    intro h
    cases h
    try first
      | exact .inl rfl
      | exact .inr rfl

theorem lutCompute_appends (i : Nat) (p : CcParams) (s : State) :
    Appends (OfConn i) s (lutCompute i p s).2 := by
  cases he : paramError p with
  | none =>
    rw [lutCompute_ok he]
    exact .of_eq rfl
  | some e =>
    rw [lutCompute_fail he]
    refine .one rfl (ofConn_connEvent ?_ i _)
    rcases paramError_code he with h | h <;> rw [h] <;> decide

/-- The records of a command are about the connection it is served for (R214 to R218). -/
theorem commandOf_appends (ins : Instr) (i : Nat) (s : State) :
    Appends (OfConn i) s (commandOf ins i s) := by
  cases ins
  case setpix ch px tr =>
    simp only [commandOf, applySetPixels]
    split <;> exact .of_eq rfl
  case sysexCc ch body =>
    simp only [commandOf, applyColourCorrection]
    split
    · exact .one rfl (ofConn_connEvent (by decide) i _)
    · rename_i p _
      have h := lutCompute_appends i p s
      split
      · rename_i u hu
        rw [hu] at h
        split <;> exact h
      · rename_i u hu
        rwa [hu] at h
  case sysexFwflags ch body =>
    cases body
    · exact .one rfl (ofConn_connEvent (by decide) i _)
    · exact .of_eq rfl
  all_goals first
    | exact .of_eq rfl
    | exact .one rfl (ofConn_connEvent (by decide) i _)

/-- So are those of the whole dispatch, in standby too. -/
theorem exec_wire_appends {ins : Instr} (hp : ins.port = .wire) {s t : State}
    (h : exec ins s = .next t) : Appends (OfConn s.cur) s t := by
  rcases exec_wire_cases hp h with hd | ⟨ch, body, -, rfl, hl, hd, -⟩
  · rcases dispatchStart_cases hd with rfl | ⟨-, -, rfl⟩
    · exact .of_eq rfl
    · have hc := commandOf_appends ins s.cur (s.setLock (.conn s.cur))
      rcases endIfNoOutput_cases s.cur (commandOf ins s.cur (s.setLock (.conn s.cur))) with he | ⟨-, he⟩
      · rw [he]
        exact hc
      · rw [he]
        exact Appends.trans hc (dispatchEnd_appends _ _)
  · rw [exec_sysexCc_suppressed _ _ _ hd hl] at h
    cases h
    unfold ccSuppress
    split <;> exact .one rfl (ofConn_connEvent (by decide) _ _)

/-- STOP reports each connection it closes (R183). -/
theorem stopEvents_ofConn (l : Lock) (cs : List Conn) :
    ∀ k, ∀ e ∈ stopEvents l k cs, ∃ i, OfConn i e := by
  induction cs with
  | nil => simp [stopEvents]
  | cons c rest ih =>
    intro k e he
    rcases List.mem_append.mp he with he | he
    · split at he
      · exact ⟨k, by simpa using List.mem_singleton.mp he ▸ ofConn_connEvent (by decide) k _⟩
      · cases he
    · exact ih (k + 1) e he

/-- The records of a framer move are about its connection (R176 to R179). -/
theorem framer_appends {s t : State} {m : Move} {i : Nat} {b : Byte}
    (hm : m = .connOpen i ∨ m = .rxByte i b ∨ m = .rxEof i ∨ m = .rxTimeout i) (h : act m s = .next t) :
    Appends (OfConn i) s t := by
  rcases hm with rfl | rfl | rfl | rfl <;> simp only [act] at h
  · cases h
    exact .of_eq rfl
  · unfold rxByte at h
    split at h
    · cases h
      exact .of_eq rfl
    · split at h
      · cases h
        exact .of_eq rfl
      · cases h
  · cases h
    unfold rxEof
    split
    · exact .of_eq rfl
    · split
      · rename_i e he
        refine .one rfl ?_
        unfold eofEvent at he
        split at he
        · split at he <;> cases he <;> exact ofConn_connEvent (by decide) i _
        · cases he
          exact ofConn_connEvent (by decide) i _
        · cases he
        · cases he
      · exact .of_eq rfl
  · cases h
    unfold rxTimeout
    split
    · exact .of_eq rfl
    · split
      · exact .one rfl (ofConn_connEvent (by decide) i _)
      · exact .of_eq rfl

end Sys2Proof.Machine
end

