-- ==== Sys2Proof/Laws/Lut.lean ====
section
/-! SUPPORT. The LUT formula: a binary64 magnitude as a fraction, rounding as a comparison with a
half-integer, and the exact integer comparison as the comparison of the reals (log 17). -/

namespace Sys2Proof.Machine

open Sys2Proof

theorem f64Unit_pos : 0 < f64Unit := by
  unfold f64Unit
  positivity

theorem f64Gcd_pos (v : B64) : 0 < Nat.gcd (f64Scaled v) f64Unit :=
  Nat.gcd_pos_of_pos_right _ f64Unit_pos

theorem f64Den_pos (v : B64) : 0 < f64Den v :=
  Nat.div_pos (Nat.le_of_dvd f64Unit_pos (Nat.gcd_dvd_right _ _)) (f64Gcd_pos v)

/-- Lowest terms do not change the magnitude. -/
theorem f64Num_div_f64Den (v : B64) :
    (f64Num v : ℝ) / f64Den v = (f64Scaled v : ℝ) / f64Unit := by
  have hg : ((Nat.gcd (f64Scaled v) f64Unit : ℕ) : ℝ) ≠ 0 := by exact_mod_cast (f64Gcd_pos v).ne'
  unfold f64Num f64Den
  rw [Nat.cast_div (Nat.gcd_dvd_left _ _) hg, Nat.cast_div (Nat.gcd_dvd_right _ _) hg]
  exact div_div_div_cancel_right₀ hg _ _

theorem cast_two_pow {m n : ℕ} (h : m = 2 ^ n) : (m : ℝ) = (2 : ℝ) ^ (n : ℤ) := by
  subst h
  push_cast
  exact (zpow_natCast _ _).symm

/-- The real a value denotes is its sign and its fraction. -/
theorem realOf_eq (v : B64) :
    realOf v = (if f64Sign v then -1 else 1) * ((f64Num v : ℝ) / f64Den v) := by
  rw [f64Num_div_f64Den]
  have hu : (f64Unit : ℝ) = (2 : ℝ) ^ (1075 : ℤ) :=
    cast_two_pow (m := f64Unit) (n := 1075) f64Unit.eq_1
  unfold realOf f64Scaled
  rw [zpow_sub₀ (by norm_num : (2 : ℝ) ≠ 0), mul_assoc, Nat.cast_mul, hu,
    cast_two_pow (m := 2 ^ max 1 (f64Exp v)) rfl]
  push_cast
  ring

theorem f64Num_eq_zero {v : B64} : f64Num v = 0 ↔ f64Mant v = 0 := by
  have hg := f64Gcd_pos v
  unfold f64Num
  rw [Nat.div_eq_zero_iff_lt hg]
  constructor
  · intro h
    by_contra hm
    have hs : 0 < f64Scaled v := Nat.mul_pos (Nat.pos_of_ne_zero hm) (Nat.two_pow_pos _)
    have := Nat.le_of_dvd hs (Nat.gcd_dvd_left (f64Scaled v) f64Unit)
    omega
  · intro h
    rw [f64Scaled, h, Nat.zero_mul] at hg ⊢
    simpa using hg

/-- A value that is not positive rounds to one that is not positive. -/
theorem roundT_nonpos (tie : RoundTie) {x : ℝ} (h : x ≤ 0) : roundT tie x ≤ 0 := by
  have hf := Int.floor_le x
  have hf1 : ⌊x⌋ ≤ 0 := by exact_mod_cast hf.trans h
  unfold roundT
  rcases eq_or_lt_of_le h with rfl | hx
  · simp
  · have hlt : ⌊x⌋ < 0 := by exact_mod_cast lt_of_le_of_lt hf hx
    split
    · exact hf1
    · split
      · omega
      · cases tie
        · simp only
          split <;> omega
        · simp only
          split <;> omega

/-- Rounding reaches `n + 1` above the half-integer, and on it when the tie goes up (R8). -/
theorem lt_roundT_iff (tie : RoundTie) {x : ℝ} (hx : 0 ≤ x) (n : ℕ) :
    (n : ℤ) + 1 ≤ roundT tie x ↔ ((2 * n + 1 : ℕ) : ℝ) < 2 * x ∨
      (2 * x = ((2 * n + 1 : ℕ) : ℝ) ∧ (tie = .halfAway ∨ n % 2 = 1)) := by
  have h1 := Int.floor_le x
  have h2 := Int.lt_floor_add_one x
  have cast : ((2 * n + 1 : ℕ) : ℝ) = 2 * n + 1 := by push_cast; ring
  have below : ⌊x⌋ ≤ n → (⌊x⌋ : ℝ) ≤ n := fun h => by exact_mod_cast h
  have above : (n : ℤ) ≤ ⌊x⌋ → (n : ℝ) ≤ ⌊x⌋ := fun h => by exact_mod_cast h
  rw [cast]
  unfold roundT
  by_cases ha : x - ⌊x⌋ < 1 / 2
  · rw [if_pos ha]
    have hle : 2 * (n : ℝ) + 1 ≤ 2 * x → (n : ℤ) + 1 ≤ ⌊x⌋ := by
      intro h
      by_contra hc
      have := below (by omega)
      linarith
    refine ⟨fun h => .inl ?_, ?_⟩
    · have : ((n : ℝ) + 1) ≤ ⌊x⌋ := by exact_mod_cast h
      linarith
    · rintro (h | ⟨h, -⟩)
      · exact hle h.le
      · exact hle h.ge
  · rw [if_neg ha]
    by_cases hb : 1 / 2 < x - ⌊x⌋
    · rw [if_pos hb]
      have hle : 2 * (n : ℝ) + 1 ≤ 2 * x → (n : ℤ) + 1 ≤ ⌊x⌋ + 1 := by
        intro h
        by_contra hc
        have : ⌊x⌋ + 1 ≤ n := by omega
        have : (⌊x⌋ : ℝ) + 1 ≤ n := by exact_mod_cast this
        linarith
      refine ⟨fun h => .inl ?_, ?_⟩
      · have := above (by omega)
        linarith
      · rintro (h | ⟨h, -⟩)
        · exact hle h.le
        · exact hle h.ge
    · rw [if_neg hb]
      have e : 2 * x = 2 * ⌊x⌋ + 1 := by linarith
      have i1 : (2 * (n : ℝ) + 1 < 2 * x) ↔ (n : ℤ) < ⌊x⌋ := by
        rw [e]
        constructor
        · intro h
          have : (n : ℝ) < ⌊x⌋ := by linarith
          exact_mod_cast this
        · intro h
          have : (n : ℝ) < ⌊x⌋ := by exact_mod_cast h
          linarith
      have i2 : (2 * x = 2 * (n : ℝ) + 1) ↔ (n : ℤ) = ⌊x⌋ := by
        rw [e]
        constructor
        · intro h
          have : (n : ℝ) = ⌊x⌋ := by linarith
          exact_mod_cast this
        · intro h
          have : (n : ℝ) = ⌊x⌋ := by exact_mod_cast h
          linarith
      rw [i1, i2]
      cases tie
      · simp only [reduceCtorEq, false_or]
        split <;> omega
      · simp only [true_or, and_true, if_pos hx]
        omega

/-- The exact integer comparison decides the rounding of the real power times the whitepoint. -/
theorem roundsAbove_iff (tie : RoundTie) (i p q a b n : ℕ) (hq : 0 < q) (hb : 0 < b) :
    roundsAbove tie i p q a b n = true ↔
      (n : ℤ) + 1 ≤ roundT tie ((i : ℝ) ^ ((p : ℝ) / q) * ((a : ℝ) / b)) := by
  have hi : (0 : ℝ) ≤ i := Nat.cast_nonneg _
  have hbr : (0 : ℝ) < b := by exact_mod_cast hb
  set y := (i : ℝ) ^ ((p : ℝ) / q) with hy
  have hy0 : 0 ≤ y := Real.rpow_nonneg hi _
  have hyq : y ^ q = (i : ℝ) ^ p := by
    rw [hy, ← Real.rpow_natCast, ← Real.rpow_mul hi,
      div_mul_cancel₀ _ (by exact_mod_cast hq.ne'), Real.rpow_natCast]
  rw [lt_roundT_iff tie (mul_nonneg hy0 (by positivity))]
  have hl : ((i ^ p * (2 * a) ^ q : ℕ) : ℝ) = (y * (2 * a)) ^ q := by
    push_cast
    rw [mul_pow y, hyq]
  have hr : (((((2 * n + 1) * b) ^ q : ℕ)) : ℝ) = ((2 * n + 1 : ℕ) * (b : ℝ)) ^ q := by
    push_cast
    ring
  have hl0 : 0 ≤ y * (2 * a) := by positivity
  have hr0 : (0 : ℝ) ≤ ((2 * n + 1 : ℕ) : ℝ) * (b : ℝ) := by positivity
  have e : y * (2 * (a : ℝ)) / b = 2 * (y * (a / b)) := by ring
  have i1 : ((2 * n + 1) * b) ^ q < i ^ p * (2 * a) ^ q ↔
      ((2 * n + 1 : ℕ) : ℝ) < 2 * (y * ((a : ℝ) / b)) := by
    rw [← Nat.cast_lt (α := ℝ), hl, hr, pow_lt_pow_iff_left₀ hr0 hl0 hq.ne', ← lt_div_iff₀ hbr, e]
  have i2 : i ^ p * (2 * a) ^ q = ((2 * n + 1) * b) ^ q ↔
      2 * (y * ((a : ℝ) / b)) = ((2 * n + 1 : ℕ) : ℝ) := by
    rw [← Nat.cast_inj (R := ℝ), hl, hr, pow_left_inj₀ hl0 hr0 hq.ne', ← div_eq_iff hbr.ne', e]
  unfold roundsAbove
  simp only [Bool.or_eq_true, Bool.and_eq_true, decide_eq_true_eq, i1, i2]

/-- Counting the thresholds a value reaches is clamping it. -/
theorem countP_thresholds {r : ℤ} {f : ℕ → Bool} (h : ∀ n, f n = true ↔ (n : ℤ) + 1 ≤ r) (k : ℕ) :
    (((List.range k).countP f : ℕ) : ℤ) = min (k : ℤ) (max 0 r) := by
  induction k with
  | zero => simp
  | succ k ih =>
    rw [List.range_succ, List.countP_append]
    push_cast
    rw [ih]
    by_cases hf : f k = true
    · have := (h k).mp hf
      simp only [List.countP_singleton, hf, if_true]
      push_cast
      omega
    · have : ¬ (k : ℤ) + 1 ≤ r := fun hh => hf ((h k).mpr hh)
      simp only [List.countP_singleton, hf]
      push_cast
      simp
      omega

end Sys2Proof.Machine
end

