-- ==== Sys2Proof/Laws/PerInstr.lean ====
section
/-! SUPPORT. Statements made per instruction. FrameShape: a well-formed instruction is encoded as one
frame whose declared length is the length of its payload (30_encoding.md R80, R81), or as one control
code (R91). -/

namespace Sys2Proof

/-- The encoding is a frame on the wire with a payload a header can declare, or one control code. -/
def Laws.FrameShape.Statement (i : Instr) : Prop :=
  i.wf = true →
    (i.port = .wire → ∃ ch cmd p, encode i = frameBytes ch cmd p ∧ p.length ≤ 65535) ∧
    (i.port = .control → ∃ code, encode i = [code])

theorem Laws.FrameShape.setpix (ch : Byte) (px : List Pixel) (tr : List Byte) :
    Laws.FrameShape.Statement (.setpix ch px tr) := by
  intro h
  simp only [Instr.wf, Bool.and_eq_true, decide_eq_true_eq] at h
  have hl := (triples_length (px.flatMap pixelBytes ++ tr)).1
  rw [triples_pixelBytes px h.1.2] at hl
  exact ⟨fun _ => ⟨ch, 0x00, _, rfl, by simp only at hl; omega⟩, nofun⟩

theorem Laws.FrameShape.setpixNoop (ch : Byte) (p : List Byte) :
    Laws.FrameShape.Statement (.setpixNoop ch p) := by
  intro h
  simp only [Instr.wf, decide_eq_true_eq] at h
  exact ⟨fun _ => ⟨ch, 0x00, p, rfl, by omega⟩, nofun⟩

theorem Laws.FrameShape.sysexShort (ch : Byte) (p : List Byte) :
    Laws.FrameShape.Statement (.sysexShort ch p) := by
  intro h
  simp only [Instr.wf, decide_eq_true_eq] at h
  exact ⟨fun _ => ⟨ch, 0xFF, p, rfl, by omega⟩, nofun⟩

theorem Laws.FrameShape.sysexCc (ch : Byte) (body : List Byte) :
    Laws.FrameShape.Statement (.sysexCc ch body) := by
  intro h
  simp only [Instr.wf, decide_eq_true_eq] at h
  exact ⟨fun _ => ⟨ch, 0xFF, _, rfl, by rw [sysexBytes_length]; omega⟩, nofun⟩

theorem Laws.FrameShape.sysexFwflags (ch : Byte) (body : List Byte) :
    Laws.FrameShape.Statement (.sysexFwflags ch body) := by
  intro h
  simp only [Instr.wf, decide_eq_true_eq] at h
  exact ⟨fun _ => ⟨ch, 0xFF, _, rfl, by rw [sysexBytes_length]; omega⟩, nofun⟩

theorem Laws.FrameShape.sysexExtUnrec (ch : Byte) (cid : U16) (body : List Byte) :
    Laws.FrameShape.Statement (.sysexExtUnrec ch cid body) := by
  intro h
  simp only [Instr.wf, Bool.and_eq_true, decide_eq_true_eq] at h
  exact ⟨fun _ => ⟨ch, 0xFF, _, rfl, by rw [sysexBytes_length]; omega⟩, nofun⟩

theorem Laws.FrameShape.sysexDevUnrec (ch : Byte) (sid cid : U16) (body : List Byte) :
    Laws.FrameShape.Statement (.sysexDevUnrec ch sid cid body) := by
  intro h
  simp only [Instr.wf, Bool.and_eq_true, decide_eq_true_eq] at h
  exact ⟨fun _ => ⟨ch, 0xFF, _, rfl, by rw [sysexBytes_length]; omega⟩, nofun⟩

theorem Laws.FrameShape.unknown (ch raw : Byte) (p : List Byte) :
    Laws.FrameShape.Statement (.unknown ch raw p) := by
  intro h
  simp only [Instr.wf, Bool.and_eq_true, decide_eq_true_eq] at h
  exact ⟨fun _ => ⟨ch, raw, p, rfl, by omega⟩, nofun⟩

theorem Laws.FrameShape.ctrlStart : Laws.FrameShape.Statement .ctrlStart :=
  fun _ => ⟨nofun, fun _ => ⟨0x01, rfl⟩⟩

theorem Laws.FrameShape.ctrlStop : Laws.FrameShape.Statement .ctrlStop :=
  fun _ => ⟨nofun, fun _ => ⟨0x02, rfl⟩⟩

theorem Laws.FrameShape.ctrlStandbyOn : Laws.FrameShape.Statement .ctrlStandbyOn :=
  fun _ => ⟨nofun, fun _ => ⟨0x03, rfl⟩⟩

theorem Laws.FrameShape.ctrlStandbyOff : Laws.FrameShape.Statement .ctrlStandbyOff :=
  fun _ => ⟨nofun, fun _ => ⟨0x04, rfl⟩⟩

theorem Laws.FrameShape.ctrlIllegal (code : Byte) : Laws.FrameShape.Statement (.ctrlIllegal code) :=
  fun _ => ⟨nofun, fun _ => ⟨code, rfl⟩⟩

end Sys2Proof
end

