-- ==== Sys2Proof/Tests/Slice0.lean ====
section
/-! SUPPORT. Tests: ill-formed terms that WellFormed refuses, words written out from the spec that the
decoder reads, one step of each instruction, and for each statement with hypotheses a state that meets
them. Expected results come from spec/95_test_vectors.md; the vector stands in each test's comment. -/

namespace Sys2Proof.Tests

open Sys2Proof Sys2Proof.Machine

-- One test at a time: the package as one text then needs few threads.
set_option Elab.async false

/-! ## WellFormed refuses -/

theorem test_wf_setpix_no_pixel : (Instr.setpix 0 [] []).wf = false := by decide
theorem test_wf_setpix_trailing : (Instr.setpix 0 [⟨1, 2, 3⟩] [4, 5, 6]).wf = false := by decide
theorem test_wf_setpix_length (px : List Pixel) (h : px.length = 21845) :
    (Instr.setpix 0 px [0]).wf = false := by simp [Instr.wf, h]
theorem test_wf_setpixNoop_length : (Instr.setpixNoop 0 [1, 2, 3]).wf = false := by decide
theorem test_wf_sysexShort_length : (Instr.sysexShort 0 [1, 2, 3, 4]).wf = false := by decide
theorem test_wf_sysexCc_length (body : List Byte) (h : body.length = 65532) :
    (Instr.sysexCc 0 body).wf = false := by simp [Instr.wf, h]
theorem test_wf_sysexFwflags_length (body : List Byte) (h : body.length = 65532) :
    (Instr.sysexFwflags 0 body).wf = false := by simp [Instr.wf, h]
theorem test_wf_sysexExtUnrec_cc : (Instr.sysexExtUnrec 0 1 []).wf = false := by decide
theorem test_wf_sysexExtUnrec_fw : (Instr.sysexExtUnrec 0 2 []).wf = false := by decide
theorem test_wf_sysexExtUnrec_length (body : List Byte) (h : body.length = 65532) :
    (Instr.sysexExtUnrec 0 3 body).wf = false := by simp [Instr.wf, h]
theorem test_wf_sysexDevUnrec_sid : (Instr.sysexDevUnrec 0 1 7 []).wf = false := by decide
theorem test_wf_sysexDevUnrec_length (body : List Byte) (h : body.length = 65532) :
    (Instr.sysexDevUnrec 0 2 7 body).wf = false := by simp [Instr.wf, h]
theorem test_wf_unknown_pixel : (Instr.unknown 0 0x00 []).wf = false := by decide
theorem test_wf_unknown_sysex : (Instr.unknown 0 0xFF []).wf = false := by decide
theorem test_wf_unknown_length (p : List Byte) (h : p.length = 65536) :
    (Instr.unknown 0 0x42 p).wf = false := by simp [Instr.wf, h]
theorem test_wf_ctrlIllegal : (Instr.ctrlIllegal 0x01).wf = false ∧ (Instr.ctrlIllegal 0x02).wf = false ∧
    (Instr.ctrlIllegal 0x03).wf = false ∧ (Instr.ctrlIllegal 0x04).wf = false := by decide

/-! ## Decoding, one word for each constructor -/

/-- T-DEC-4: two bytes dropped. -/
theorem test_decode_setpix : decodeFrame [0x05, 0x00, 0x00, 0x05, 0x01, 0x02, 0x03, 0x04, 0x05] =
    .ok (.setpix 5 [⟨1, 2, 3⟩] [4, 5], []) := by decide

/-- T-DEC-1. -/
theorem test_decode_setpixNoop : decodeFrame [0x00, 0x00, 0x00, 0x00] = .ok (.setpixNoop 0 [], []) := by
  decide

/-- T-DEC-7. -/
theorem test_decode_sysexShort : decodeFrame [0x00, 0xFF, 0x00, 0x00] = .ok (.sysexShort 0 [], []) := by
  decide

/-- T-DEC-9. -/
theorem test_decode_sysexCc :
    decodeFrame [0x00, 0xFF, 0x00, 0x04, 0x00, 0x01, 0x00, 0x01] = .ok (.sysexCc 0 [], []) := by decide

/-- T-FW-1. -/
theorem test_decode_sysexFwflags :
    decodeFrame [0x00, 0xFF, 0x00, 0x05, 0x00, 0x01, 0x00, 0x02, 0x25] =
      .ok (.sysexFwflags 0 [0x25], []) := by decide

/-- T-DEC-11. -/
theorem test_decode_sysexExtUnrec :
    decodeFrame [0x00, 0xFF, 0x00, 0x04, 0x00, 0x01, 0x00, 0x00] =
      .ok (.sysexExtUnrec 0 0 [], []) := by decide

/-- T-DEC-14 and T-DEC-15. -/
theorem test_decode_sysexDevUnrec :
    decodeFrame [0x00, 0xFF, 0x00, 0x04, 0x00, 0x00, 0x00, 0x01] =
      .ok (.sysexDevUnrec 0 0 1 [], []) ∧
    decodeFrame [0x00, 0xFF, 0x00, 0x04, 0xFF, 0xFF, 0x00, 0x01] =
      .ok (.sysexDevUnrec 0 0xFFFF 1 [], []) := by decide

/-- T-DEC-16 and T-DEC-17. -/
theorem test_decode_unknown : decodeFrame [0x00, 0x01, 0x00, 0x00] = .ok (.unknown 0 0x01 [], []) ∧
    decodeFrame [0x00, 0xFE, 0x00, 0x02, 0x00, 0x00] = .ok (.unknown 0 0xFE [0, 0], []) := by decide

/-- R91 and T-CTL-13. -/
theorem test_decode_ctrl : decodeCtrl 0x01 = .ctrlStart ∧ decodeCtrl 0x02 = .ctrlStop ∧
    decodeCtrl 0x03 = .ctrlStandbyOn ∧ decodeCtrl 0x04 = .ctrlStandbyOff ∧
    decodeCtrl 0x00 = .ctrlIllegal 0x00 ∧ decodeCtrl 0x05 = .ctrlIllegal 0x05 ∧
    decodeCtrl 0xFF = .ctrlIllegal 0xFF := by decide

/-- W10 and T-HDR-4: the big-endian length. -/
theorem test_header_length : (HeaderBytes.length ⟨0x07, 0x00, 0x01, 0x2C⟩).toNat = 300 ∧
    (HeaderBytes.length ⟨0xFF, 0x00, 0x12, 0x34⟩).toNat = 4660 := by decide

/-- R81: the only rejections of a stream are incomplete frames. -/
theorem test_decode_truncated : decodeFrame [0x00, 0x00, 0x00] = .error (.truncHeader 3) ∧
    decodeFrame [0x00, 0x00, 0x00, 0x06, 0x0A, 0x14, 0x1E] = .error (.truncPayload 6 3) := by decide

/-- T-DEC-10's bytes 00 FF 00 05 | 00 01 00 02 | 05 as the words of the opcode table. -/
theorem test_decode_tableWord :
    decodeTableWord 96 0x05000000_00010002_00FF0005 = some (.sysexFwflags 0 [0x05]) ∧
    decodeTableWord 32 0x2A420000 = some (.unknown 0x2A 0x42 []) ∧
    decodeTableWord 8 0x03 = some .ctrlStandbyOn := by decide +kernel

/-- W1's bytes. -/
theorem test_encode_setpix : encode (.setpix 0 [⟨10, 20, 30⟩, ⟨40, 50, 60⟩] []) =
    [0x00, 0x00, 0x00, 0x06, 0x0A, 0x14, 0x1E, 0x28, 0x32, 0x3C] := by decide

/-- T-SYS-3's bytes: systemId 256, commandId 1. -/
theorem test_encode_sysexDevUnrec : encode (.sysexDevUnrec 0 0x0100 0x0001 []) =
    [0x00, 0xFF, 0x00, 0x04, 0x01, 0x00, 0x00, 0x01] := by decide

/-! ## One step of each instruction -/

/-- A connection at a frame boundary. -/
def openConn : Conn := { Conn.reset with fsm := .hdr }

/-- `S_run` of 95_test_vectors.md, with two connections open. -/
def sRun : State := { State.reset with run := .running, conns := [openConn, openConn] }

/-- Connection 0 holding a frame in DISP. -/
def dispConn (h : HeaderBytes) (payload : List Byte) : Conn := frameInDisp openConn h payload

/-- `S_run` with a frame waiting on connection 0 and its dispatch offered. -/
def sDisp (h : HeaderBytes) (payload : List Byte) : State :=
  { sRun with conns := [dispConn h payload, openConn], sched := [.dispatch 0] }

/-- `S_run` with a control operation offered. -/
def sCtrl (code : Byte) : State := { sRun with sched := [.ctrl code true] }

/-- The result is a next state with the property. -/
def gives (r : Result) (p : State → Bool) : Bool :=
  match r with
  | .next t => p t
  | .fault _ => false
  | .refused _ => false

/-- T-PIX-1. -/
theorem test_setpix : gives (step (sDisp ⟨0x00, 0x00, 0x00, 0x06⟩ [10, 20, 30, 40, 50, 60])) (fun t =>
    decide (t.out = .pix [⟨10, 20, 30⟩, ⟨40, 50, 60⟩]) && decide (t.lock = .conn 0) &&
      decide (t.events = [])) = true := by decide +kernel

/-- R145: r by table 0, g by table 1, b by table 2. -/
theorem test_setpix_tables : gives (step { sDisp ⟨0x00, 0x00, 0x00, 0x03⟩ [7, 7, 7] with
    lut := ⟨Vector.replicate 256 1, Vector.replicate 256 2, Vector.replicate 256 3⟩ })
    (fun t => decide (t.out = .pix [⟨1, 2, 3⟩])) = true := by decide +kernel

/-- T-NOP-1. -/
theorem test_setpixNoop : gives (step (sDisp ⟨0x00, 0x00, 0x00, 0x01⟩ [0xAA])) (fun t =>
    decide (t.out = .none) && decide (t.events = []) && decide (t.lock = .free) &&
      decide (t.conns.map (·.fsm) = [.hdr, .hdr])) = true := by decide +kernel

/-- T-SYS-4. -/
theorem test_sysexShort : gives (step (sDisp ⟨0x00, 0xFF, 0x00, 0x02⟩ [0x00, 0x01])) (fun t =>
    decide (t.events = [⟨.sysexUnknownDevice, some 0, [.num 0, .num 0]⟩]) &&
      decide (t.conns.map (·.fsm) = [.hdr, .hdr])) = true := by decide +kernel

/-- T-CC-1. -/
theorem test_sysexCc : gives (step (sDisp ⟨0x00, 0xFF, 0x00, 0x26⟩ ([0, 1, 0, 1] ++ ccExampleBody)))
    (fun t => decide (t.params = ⟨0x4000000000000000, b64One, b64One, b64One⟩) &&
      decide (t.out = .cc ⟨0x4000000000000000, b64One, b64One, b64One⟩) &&
      decide (t.events = [])) = true := by decide +kernel

/-- T-STB-2. -/
theorem test_sysexCc_standby : gives (step
    { sDisp ⟨0x00, 0xFF, 0x00, 0x26⟩ ([0, 1, 0, 1] ++ ccExampleBody) with lock := .standby })
    (fun t => decide (t.params = paramsReset) && decide (t.lock = .standby) &&
      decide (t.events = [⟨.ccSuppressedStandby, some 0, []⟩]) &&
      decide (t.conns.map (·.fsm) = [.hdr, .hdr])) = true := by decide +kernel

/-- T-FW-2. -/
theorem test_sysexFwflags : gives (step { sDisp ⟨0x00, 0xFF, 0x00, 0x05⟩ [0, 1, 0, 2, 0x0A] with
    fw := 0b0101 }) (fun t => decide (t.fw = 0b1010)) = true := by decide +kernel

/-- T-FW-5. -/
theorem test_sysexFwflags_empty : gives (step { sDisp ⟨0x00, 0xFF, 0x00, 0x04⟩ [0, 1, 0, 2] with
    fw := 0b1111 }) (fun t => decide (t.fw = 0b1111) &&
      decide (t.events = [⟨.fwBodyEmpty, some 0, []⟩])) = true := by decide +kernel

/-- T-SYS-1. -/
theorem test_sysexExtUnrec : gives (step (sDisp ⟨0x00, 0xFF, 0x00, 0x04⟩ [0, 1, 0, 3])) (fun t =>
    decide (t.events = [⟨.sysexUnknownExtension, some 0, [.num 3]⟩])) = true := by decide +kernel

/-- T-SYS-3. -/
theorem test_sysexDevUnrec : gives (step (sDisp ⟨0x00, 0xFF, 0x00, 0x04⟩ [1, 0, 0, 1])) (fun t =>
    decide (t.events = [⟨.sysexUnknownDevice, some 0, [.num 256, .num 1]⟩])) = true := by
  decide +kernel

/-- T-UNK-1. -/
theorem test_unknown : gives (step (sDisp ⟨0x00, 0x42, 0x00, 0x03⟩ [1, 2, 3])) (fun t =>
    decide (t.events = [⟨.unknownCommand, some 0, [.num 0x42]⟩]) &&
      decide (t.conns.map (·.fsm) = [.hdr, .hdr])) = true := by decide +kernel

/-- T-CTL-1. -/
theorem test_ctrlStart : gives (step { State.reset with sched := [.ctrl 0x01 true] }) (fun t =>
    decide (t.run = .running) && decide (t.resps = [.ok])) = true := by decide +kernel

/-- T-CTL-3. -/
theorem test_ctrlStart_badState : gives (step (sCtrl 0x01)) (fun t =>
    decide (t.run = .running) && decide (t.resps = [.badState]) &&
      decide (t.events = [⟨.ctrlBadState, none, [.num 1]⟩])) = true := by decide +kernel

/-- P5 step 4: the connection that holds the lock is marked, the other closed. -/
theorem test_ctrlStop : gives (step
    { sCtrl 0x02 with
      conns := [dispConn ⟨0x00, 0x00, 0x00, 0x03⟩ [1, 1, 1], openConn]
      lock := .conn 0, out := .pix [⟨1, 1, 1⟩] })
    (fun t => decide (t.run = .terminated) && decide (t.conns.map (·.closing) = [true, false]) &&
      decide (t.conns.map (·.fsm) = [.disp, .closed]) &&
      decide (t.events = [⟨.connAbortedStop, some 1, [.fsm .hdr, .num 0, .num 0]⟩])) = true := by
  decide +kernel

/-- T-CTL-6. -/
theorem test_ctrlStandbyOn : gives (step (sCtrl 0x03)) (fun t =>
    decide (t.lock = .standby) && decide (t.resps = [.ok])) = true := by decide +kernel

/-- T-CTL-11, first step: no response yet. -/
theorem test_ctrlStandbyOn_waits : gives (step { sCtrl 0x03 with lock := .conn 0 }) (fun t =>
    decide (t.lock = .conn 0) && t.stbyReq && decide (t.resps = [])) = true := by decide +kernel

/-- T-CTL-8. -/
theorem test_ctrlStandbyOff : gives (step { sCtrl 0x04 with lock := .standby }) (fun t =>
    decide (t.lock = .free) && decide (t.resps = [.ok])) = true := by decide +kernel

/-- T-CTL-10. -/
theorem test_ctrlStandbyOff_notEngaged : gives (step { sCtrl 0x04 with lock := .conn 0 }) (fun t =>
    decide (t.lock = .conn 0) && decide (t.resps = [.notEngaged]) &&
      decide (t.events = [⟨.standbyNotEngaged, none, []⟩])) = true := by decide +kernel

/-- T-CTL-13. -/
theorem test_ctrlIllegal : gives (step (sCtrl 0x05)) (fun t =>
    decide (t.resps = [.illegal]) && decide (t.events = [⟨.ctrlIllegal, none, [.num 5]⟩])) = true := by
  decide +kernel

/-- T-HDR-3: the fourth header byte gives length 256. -/
theorem test_rxByte_header : gives (step { sRun with
    conns := [{ openConn with hb := ⟨0x00, 0x00, 0x01, 0x55⟩, hcount := 3 }, openConn]
    sched := [.rxByte 0 0x00] }) (fun t =>
      decide (t.conns.map (·.fsm) = [.pay, .hdr]) && decide (t.conns.map (·.len) = [256, 0])) = true := by
  decide +kernel

/-- T-HDR-6: a header of length 0 is decoded in the step of its fourth byte. -/
theorem test_rxByte_emptyPayload : gives (step { sRun with
    conns := [{ openConn with hb := ⟨0x2A, 0x42, 0x00, 0x55⟩, hcount := 3 }, openConn]
    sched := [.rxByte 0 0x00] }) (fun t =>
      decide (t.conns.map (·.fsm) = [.disp, .hdr]) &&
        decide (t.conns.map (·.cmd) = [some (.unknown 0x2A 0x42 []), none])) = true := by decide +kernel

/-- T-FRM-4: a truncated payload is discarded whole. -/
theorem test_rxEof_payload : gives (step { sRun with
    conns := [{ openConn with fsm := .pay, hb := ⟨0, 0, 0, 6⟩, hcount := 4, len := 6, pcount := 3 }, openConn]
    sched := [.rxEof 0] }) (fun t => decide (t.conns.map (·.fsm) = [.closed, .hdr]) &&
      decide (t.events = [⟨.framingTruncPayload, some 0, [.num 6, .num 3]⟩]) &&
      decide (t.out = .none)) = true := by decide +kernel

/-- P5 step 5: the acknowledge after STOP. -/
theorem test_consAck_closing : gives (step { sRun with
    conns := [{ dispConn ⟨0x00, 0x00, 0x00, 0x03⟩ [1, 1, 1] with closing := true }, openConn]
    lock := .conn 0, out := .pix [⟨1, 1, 1⟩], sched := [.consAck] }) (fun t =>
      decide (t.out = .none) && decide (t.lock = .free) && decide (t.conns.map (·.fsm) = [.closed, .hdr]) &&
      decide (t.events = [⟨.connAbortedStop, some 0, [.fsm .disp, .num 0, .num 0]⟩])) = true := by
  decide +kernel

/-- R240: the code column of the table. -/
theorem test_eventCodes : [EventCode.framingTruncHeader, .framingTruncPayload, .readTimeout, .peerClosed,
    .connAbortedStop, .unknownCommand, .sysexUnknownDevice, .sysexUnknownExtension, .ccDecodeError,
    .fwBodyEmpty, .invalidGamma, .invalidWhitepoint, .ccSuppressedStandby, .lockTimeout,
    .standbyNotEngaged, .ctrlIllegal, .ctrlBadState, .bindError].map EventCode.toByte =
    [0x01, 0x02, 0x03, 0x04, 0x05, 0x10, 0x11, 0x12, 0x20, 0x21, 0x28, 0x29, 0x30, 0x31, 0x32, 0x33, 0x34,
      0x3F] := by decide

/-- R36: the status outputs follow the state. -/
theorem test_statusOutputs : ({ sRun with lock := .standby, fw := 0b1010 } : State).standbyActive = true ∧
    ({ sRun with lock := .standby, fw := 0b1010 } : State).fwFlags = 0b1010 ∧
    ({ sRun with fw := 0b1010 } : State).ledOnOff = true ∧
    ({ sRun with fw := 0b1010 } : State).manualLed = false ∧
    ({ sRun with fw := 0b1010 } : State).noInterp = true ∧
    ({ sRun with fw := 0b1010 } : State).noDither = false ∧ sRun.runState = .running := by decide

/-! ## The LUT engine -/

/-- T-LUT-1, rows gamma 2.0 (0x4000…) and 0.5 (0x3FE0…), whitepoint 1.0. -/
theorem test_lutEntry : lutEntry .halfEven 15 0x4000000000000000 b64One = 225 ∧
    lutEntry .halfEven 16 0x4000000000000000 b64One = 255 ∧
    lutEntry .halfEven 2 0x3FE0000000000000 b64One = 1 ∧
    lutEntry .halfEven 255 0x3FE0000000000000 b64One = 16 := by decide +kernel

/-- T-LUT-1, whitepoint -1.0. -/
theorem test_lutEntry_negative : lutEntry .halfEven 255 b64One 0xBFF0000000000000 = 0 := by
  decide +kernel

/-- T-LUT-2: gamma 1.0 and 0.5, whitepoint 0.5 and 0.25; gamma 3.0 (0x4008…), whitepoint 1.5. -/
theorem test_lutEntry_ties : lutEntry .halfEven 5 b64One 0x3FE0000000000000 = 2 ∧
    lutEntry .halfAway 5 b64One 0x3FE0000000000000 = 3 ∧
    lutEntry .halfEven 196 0x3FE0000000000000 0x3FD0000000000000 = 4 ∧
    lutEntry .halfEven 3 0x4008000000000000 0x3FF8000000000000 = 40 ∧
    lutEntry .halfAway 3 0x4008000000000000 0x3FF8000000000000 = 41 := by decide +kernel

/-- T-LUT-4: gamma -0.0, NaN, +inf; the whitepoint (1, NaN, +inf) with index 1; gamma before whitepoint. -/
theorem test_paramError :
    paramError ⟨0x8000000000000000, b64One, b64One, b64One⟩ =
      some (.invalidGamma, .b64 0x8000000000000000) ∧
    paramError ⟨0x7FF0000000000000, b64One, b64One, b64One⟩ =
      some (.invalidGamma, .b64 0x7FF0000000000000) ∧
    paramError ⟨b64One, b64One, 0x7FF8000000000000, 0x7FF0000000000000⟩ =
      some (.invalidWhitepoint, .num 1) ∧
    paramError ⟨0x7FF8000000000000, 0x7FF8000000000000, b64One, b64One⟩ =
      some (.invalidGamma, .b64 0x7FF8000000000000) := by decide +kernel

/-- T-LUT-4, accepted corners: gamma 1e300 and the smallest subnormal. -/
theorem test_paramError_accepted :
    paramError ⟨0x7E37E43C8800759C, b64One, b64One, b64One⟩ = none ∧
    paramError ⟨0x0000000000000001, 0x4004000000000000, 0x4004000000000000, 0x4004000000000000⟩ = none := by
  decide +kernel

/-- W8, T-CC-3, T-CC-4: bodies that do not parse. -/
theorem test_ccParse_none : ccParse [0xFF] = none ∧ ccParse [] = none ∧
    ccParse [0x7B, 0x22, 0x67, 0x61, 0x6D, 0x6D, 0x61, 0x22] = none := by decide +kernel

/-! ## The hypotheses of the statements are met -/

theorem witness_decodeOfEncoded : (Instr.setpix 5 [⟨1, 2, 3⟩] [4, 5]).port = .wire ∧
    (Instr.setpix 5 [⟨1, 2, 3⟩] [4, 5]).wf = true := by decide

theorem witness_encodeOfDecoded : ∃ i, decodeFrame [0x00, 0xFE, 0x00, 0x01, 0x07, 0x08] = .ok (i, [0x08]) :=
  ⟨.unknown 0 0xFE [7], by decide⟩

theorem witness_controlCodes : (Instr.ctrlIllegal 0x00).port = .control ∧
    (Instr.ctrlIllegal 0x00).wf = true := by decide

theorem witness_pixelFrame_pixels : ∃ (h : HeaderBytes) (p : List Byte), h.command = 0x00 ∧
    p.length = h.length.toNat ∧ 3 ≤ h.length.toNat ∧ 0 < h.length.toNat / 3 :=
  ⟨⟨0, 0x00, 0, 3⟩, [1, 2, 3], by decide⟩

theorem witness_pixelFrame_noOp : ∃ (h : HeaderBytes) (p : List Byte), h.command = 0x00 ∧
    p.length = h.length.toNat ∧ h.length.toNat ≤ 2 := ⟨⟨0, 0x00, 0, 2⟩, [1, 2], by decide⟩

theorem witness_sysExFrame_long : ∃ (h : HeaderBytes) (p : List Byte), h.command = 0xFF ∧
    p.length = h.length.toNat ∧ 3 < h.length.toNat := ⟨⟨0, 0xFF, 0, 4⟩, [1, 2, 3, 4], by decide⟩

theorem witness_sysExFrame_short : ∃ (h : HeaderBytes) (p : List Byte), h.command = 0xFF ∧
    p.length = h.length.toNat ∧ h.length.toNat ≤ 3 := ⟨⟨0, 0xFF, 0, 3⟩, [1, 2, 3], by decide⟩

theorem witness_otherCommandByte : ∃ h : HeaderBytes, h.command ≠ 0x00 ∧ h.command ≠ 0xFF :=
  ⟨⟨0, 0xFE, 0, 0⟩, by decide⟩

theorem witness_decodeMap : ∃ (h : HeaderBytes) (p : List Byte), p.length = h.length.toNat :=
  ⟨⟨0, 0xFF, 0, 4⟩, [0, 1, 0, 1], by decide⟩

theorem witness_stepTakesFirst : ∃ (s : State) (pre post : List Move) (m : Move),
    s.sched = pre ++ m :: post ∧ (∀ m' ∈ pre, enabled s m' = false) ∧ enabled s m = true :=
  ⟨{ sRun with sched := [.consAck, .rxEof 0, .reset] }, [.consAck], [.reset], .rxEof 0, rfl, by decide, by decide⟩

theorem witness_stepIdle : ∃ s : State, s.sched ≠ [] ∧ ∀ m ∈ s.sched, enabled s m = false :=
  ⟨{ sRun with sched := [.consAck] }, by decide, by decide⟩

theorem witness_stepRuns_frame : ∃ (s : State) (rest : List Move) (j : Nat) (c : Conn) (p : List Byte)
    (i : Instr), s.sched = .dispatch j :: rest ∧ s.conns[j]? = some c ∧ c.fsm = .disp ∧
    c.payload = some p ∧ c.cmd = some (decodePayload c.hb p) ∧
    decodeFrame ([c.hb.b0, c.hb.b1, c.hb.b2, c.hb.b3] ++ p) = .ok (i, []) ∧ s.lock = .free :=
  ⟨sDisp ⟨0, 0x42, 0, 1⟩ [7], [], 0, dispConn ⟨0, 0x42, 0, 1⟩ [7], [7], .unknown 0 0x42 [7],
    rfl, rfl, rfl, by decide, by decide, by decide, rfl⟩

theorem witness_stepRuns_standby : ∃ (s : State) (rest : List Move) (j : Nat) (c : Conn) (p : List Byte)
    (i : Instr), s.sched = .dispatch j :: rest ∧ s.conns[j]? = some c ∧ c.fsm = .disp ∧
    c.payload = some p ∧ c.cmd = some (decodePayload c.hb p) ∧
    decodeFrame ([c.hb.b0, c.hb.b1, c.hb.b2, c.hb.b3] ++ p) = .ok (i, []) ∧
    s.lock = .standby ∧ isColourCorrection i = true :=
  ⟨{ sDisp ⟨0, 0xFF, 0, 4⟩ [0, 1, 0, 1] with lock := .standby }, [], 0, dispConn ⟨0, 0xFF, 0, 4⟩ [0, 1, 0, 1],
    [0, 1, 0, 1], .sysexCc 0 [], rfl, rfl, rfl, by decide, by decide, by decide, rfl, rfl⟩

theorem witness_stepRuns_control : ∃ (s : State) (rest : List Move) (code : Byte) (b : Bool),
    s.sched = .ctrl code b :: rest ∧ s.stbyReq = false := ⟨sCtrl 0x02, [], 0x02, true, rfl, rfl⟩

theorem witness_connOpen : ∃ (s : State) (rest : List Move) (i : Nat) (c : Conn),
    s.sched = .connOpen i :: rest ∧ s.run = .running ∧ s.conns[i]? = some c ∧ c.fsm = .closed :=
  ⟨{ sRun with conns := [openConn, Conn.reset], sched := [.connOpen 1] }, [], 1, Conn.reset, rfl, rfl, rfl, rfl⟩

theorem witness_connOpen_notEnabled : (∃ s : State, s.run ≠ .running) ∧
    ∃ (s : State) (i : Nat) (c : Conn), s.conns[i]? = some c ∧ c.fsm ≠ .closed :=
  ⟨⟨State.reset, by decide⟩, sRun, 0, openConn, rfl, by decide⟩

/-- A record that waits for header byte `n`, and for a payload byte. -/
def headerConn (n : Nat) (len : Byte) : Conn := { openConn with hb := ⟨0, 0, len, 0⟩, hcount := n }

theorem witness_headerByte (n : Fin 4) : ∃ (s : State) (rest : List Move) (i : Nat) (b : Byte) (c : Conn),
    s.sched = .rxByte i b :: rest ∧ s.conns[i]? = some c ∧ c.fsm = .hdr ∧ c.hcount = n.val :=
  ⟨{ sRun with conns := [headerConn n 0], sched := [.rxByte 0 7] }, [], 0, 7, headerConn n 0, rfl, rfl, rfl, rfl⟩

theorem witness_headerByte_length : ∃ (c : Conn) (b : Byte) (len : U16), c.fsm = .hdr ∧ c.hcount = 3 ∧
    len.toNat = 256 * c.hb.b2.toNat + b.toNat ∧ len ≠ 0 :=
  ⟨headerConn 3 1, 0, 256, rfl, rfl, by decide, by decide⟩

theorem witness_headerByte_noPayload : ∃ (c : Conn) (b : Byte) (len : U16), c.fsm = .hdr ∧ c.hcount = 3 ∧
    len.toNat = 256 * c.hb.b2.toNat + b.toNat ∧ len = 0 :=
  ⟨headerConn 3 0, 0, 0, rfl, rfl, by decide, rfl⟩

/-- A record with the first of `n` payload bytes received. -/
def payConn (n : Byte) : Conn :=
  { openConn with
    fsm := .pay, hb := ⟨0, 0, 0, n⟩, hcount := 4, len := u16be 0 n, pb := [(0, 9)], pcount := 1 }

theorem witness_payloadByte : ∃ (s : State) (rest : List Move) (i : Nat) (b : Byte) (c : Conn),
    s.sched = .rxByte i b :: rest ∧ s.conns[i]? = some c ∧ c.fsm = .pay ∧ c.pcount < c.len.toNat ∧
    c.pcount + 1 < c.len.toNat :=
  ⟨{ sRun with conns := [payConn 3], sched := [.rxByte 0 7] }, [], 0, 7, payConn 3, rfl, rfl, rfl,
    by decide, by decide⟩

theorem witness_payloadByte_last : ∃ (s : State) (rest : List Move) (i : Nat) (b : Byte) (c : Conn)
    (bytes : List Byte), s.sched = .rxByte i b :: rest ∧ s.conns[i]? = some c ∧ c.fsm = .pay ∧
    c.pcount < c.len.toNat ∧ c.pcount + 1 = c.len.toNat ∧ bytes.length = c.pcount ∧
    ∀ a, a < c.pcount → c.pb.read a = bytes[a]? :=
  ⟨{ sRun with conns := [payConn 2], sched := [.rxByte 0 7] }, [], 0, 7, payConn 2, [9], rfl, rfl, rfl,
    by decide, by decide, rfl, by decide⟩

theorem witness_framerAssembles : ∃ (s : State) (rest : List Move) (j : Nat) (c : Conn) (i : Instr),
    i.port = .wire ∧ i.wf = true ∧ s.conns[j]? = some c ∧ c.fsm = .hdr ∧ c.hcount = 0 ∧
    s.sched = (encode i).map (Move.rxByte j) ++ rest :=
  ⟨{ sRun with sched := (encode (.setpixNoop 0 [7])).map (Move.rxByte 1) ++ [.rxEof 0] }, [.rxEof 0], 1,
    openConn, .setpixNoop 0 [7], rfl, by decide, rfl, rfl, rfl, rfl⟩

theorem witness_eof_boundary : ∃ (s : State) (rest : List Move) (i : Nat) (c : Conn),
    s.sched = .rxEof i :: rest ∧ s.conns[i]? = some c ∧ c.fsm = .hdr ∧ c.hcount = 0 ∧ c.pcount = 0 ∧
    c.cmd = none := ⟨{ sRun with sched := [.rxEof 0] }, [], 0, openConn, rfl, rfl, rfl, rfl, rfl, rfl⟩

theorem witness_eof_header : ∃ (s : State) (rest : List Move) (i : Nat) (c : Conn),
    s.sched = .rxEof i :: rest ∧ s.conns[i]? = some c ∧ c.fsm = .hdr ∧ 1 ≤ c.hcount :=
  ⟨{ sRun with conns := [headerConn 1 0], sched := [.rxEof 0] }, [], 0, headerConn 1 0, rfl, rfl, rfl, by decide⟩

theorem witness_eof_payload : ∃ (s : State) (rest : List Move) (i : Nat) (c : Conn),
    s.sched = .rxEof i :: rest ∧ s.conns[i]? = some c ∧ c.fsm = .pay :=
  ⟨{ sRun with conns := [payConn 3], sched := [.rxEof 0] }, [], 0, payConn 3, rfl, rfl, rfl⟩

theorem witness_readTimeout : ∃ (s : State) (rest : List Move) (i : Nat) (c : Conn),
    s.sched = .rxTimeout i :: rest ∧ s.conns[i]? = some c ∧ (c.fsm = .hdr ∨ c.fsm = .pay) :=
  ⟨{ sRun with conns := [payConn 3], sched := [.rxTimeout 0] }, [], 0, payConn 3, rfl, rfl, .inr rfl⟩

theorem witness_readsNothing : ∃ (s : State) (i : Nat) (c : Conn) (b : Byte), s.conns[i]? = some c ∧
    (c.fsm = .disp ∨ c.fsm = .closed) ∧ s.sched = [.rxByte i b] :=
  ⟨{ sDisp ⟨0, 0x42, 0, 0⟩ [] with sched := [.rxByte 0 7] }, 0, dispConn ⟨0, 0x42, 0, 0⟩ [], 7, rfl, .inl rfl, rfl⟩

theorem witness_framerIndependent : ∃ (s t s' : State) (i : Nat) (b : Byte),
    act (.rxByte i b) s = .next t ∧ s'.conns[i]? = s.conns[i]? ∧ s' ≠ s :=
  ⟨sRun, _, { sRun with lock := .standby }, 0, 7, rfl, rfl, fun h => by cases congrArg State.lock h⟩

theorem witness_ready : Ready (sDisp ⟨0, 0x00, 0, 3⟩ [1, 2, 3]) (dispConn ⟨0, 0x00, 0, 3⟩ [1, 2, 3]) ∧
    (sDisp ⟨0, 0x00, 0, 3⟩ [1, 2, 3]).cfg.hasPixConsumer = true ∧
    (sDisp ⟨0, 0x00, 0, 3⟩ [1, 2, 3]).cfg.hasCcConsumer = true := ⟨⟨rfl, rfl, rfl, rfl, rfl⟩, rfl, rfl⟩

/-- The same with no consumer attached. -/
def sAlone (h : HeaderBytes) (payload : List Byte) : State :=
  { sDisp h payload with cfg := ⟨false, false, .halfAway⟩ }

theorem witness_ready_noConsumer :
    Ready (sAlone ⟨0, 0x00, 0, 3⟩ [1, 2, 3]) (dispConn ⟨0, 0x00, 0, 3⟩ [1, 2, 3]) ∧
    (sAlone ⟨0, 0x00, 0, 3⟩ [1, 2, 3]).cfg.hasPixConsumer = false ∧
    (sAlone ⟨0, 0x00, 0, 3⟩ [1, 2, 3]).cfg.hasCcConsumer = false := ⟨⟨rfl, rfl, rfl, rfl, rfl⟩, rfl, rfl⟩

theorem gammaLegal_one : gammaLegal b64One := by
  unfold gammaLegal
  decide +kernel

theorem whitepointsLegal_reset : whitepointsLegal paramsReset := by
  unfold whitepointsLegal
  decide +kernel

theorem witness_ccReplaces : ccParse ccExampleBody = some ccExampleParams ∧
    gammaLegal ccExampleParams.gamma ∧ whitepointsLegal ccExampleParams := by
  refine ⟨by decide +kernel, ?_, ?_⟩
  · unfold gammaLegal
    decide +kernel
  · unfold whitepointsLegal
    decide +kernel

theorem witness_lutCompute_gamma : ¬ gammaLegal 0x8000000000000000 := by
  unfold gammaLegal
  decide +kernel

theorem witness_lutCompute_whitepoint (k : Fin 3) : ∃ p : CcParams, gammaLegal p.gamma ∧
    f64IsFinite (whitepoint p k) = false ∧ ∀ k' < k, f64IsFinite (whitepoint p k') = true := by
  revert k
  unfold gammaLegal
  intro k
  match k with
  | 0 => exact ⟨⟨b64One, 0x7FF8000000000000, b64One, b64One⟩, by decide +kernel⟩
  | 1 => exact ⟨⟨b64One, b64One, 0x7FF0000000000000, b64One⟩, by decide +kernel⟩
  | 2 => exact ⟨⟨b64One, b64One, b64One, 0xFFF0000000000000⟩, by decide +kernel⟩

theorem witness_ccSuppressed : ∃ (s : State) (c : Conn), s.conns[s.cur]? = some c ∧ c.fsm = .disp ∧
    s.lock = .standby ∧ ccParse [] = none ∧ (ccParse ccExampleBody).isSome = true :=
  ⟨{ sDisp ⟨0, 0xFF, 0, 4⟩ [0, 1, 0, 1] with lock := .standby }, dispConn ⟨0, 0xFF, 0, 4⟩ [0, 1, 0, 1], rfl, rfl,
    rfl, by decide +kernel, by decide +kernel⟩

theorem witness_commandsWait : ∃ (i : Instr) (s : State), i.port = .wire ∧ s.lock ≠ .free ∧
    (isColourCorrection i = false ∨ s.lock ≠ .standby) :=
  ⟨.setpixNoop 0 [], { sRun with lock := .standby }, rfl, by decide, .inl rfl⟩

theorem witness_commandsWait_colourCorrection : ∃ (i : Instr) (s : State), i.port = .wire ∧
    s.lock ≠ .free ∧ isColourCorrection i = true ∧ s.lock ≠ .standby :=
  ⟨.sysexCc 0 [], { sRun with lock := .conn 1 }, rfl, by decide, rfl, by decide⟩

theorem witness_commandsWait_notInDisp : ∃ (i : Instr) (s : State), i.port = .wire ∧
    s.connIn s.cur .disp = false := ⟨.setpixNoop 0 [], sRun, rfl, rfl⟩

theorem witness_frameInstructions : ∃ (i : Instr) (s t : State), i.port = .wire ∧ exec i s = .next t :=
  ⟨.unknown 0 0x42 [], sDisp ⟨0, 0x42, 0, 0⟩ [], _, rfl, rfl⟩

/-- A dispatch whose output waits for its acknowledge. -/
def sHeld (closing : Bool) : State :=
  { sRun with
    conns := [{ dispConn ⟨0, 0x00, 0, 3⟩ [1, 1, 1] with closing := closing }, openConn]
    lock := .conn 0
    out := .pix [⟨1, 1, 1⟩] }

theorem witness_acknowledge (closing : Bool) : ∃ (s : State) (rest : List Move) (i : Nat) (c : Conn),
    s.sched = .consAck :: rest ∧ s.lock = .conn i ∧ s.out ≠ .none ∧ s.conns[i]? = some c ∧
    c.closing = closing :=
  ⟨{ sHeld closing with sched := [.consAck] }, [], 0,
    { dispConn ⟨0, 0x00, 0, 3⟩ [1, 1, 1] with closing := closing }, rfl, rfl, nofun, rfl, rfl⟩

theorem witness_start (b : Bool) : ∃ s : State, s.stbyReq = false ∧ s.run = .idle ∧ s.bindOk = b :=
  ⟨{ State.reset with bindOk := b }, rfl, rfl, rfl⟩

theorem witness_start_badState : ∃ s : State, s.stbyReq = false ∧ s.run ≠ .idle := ⟨sRun, rfl, by decide⟩

theorem witness_stop : ∃ s t : State, s.stbyReq = false ∧ exec .ctrlStop s = .next t := ⟨sHeld false, _, rfl, rfl⟩

theorem witness_standbyOn : (∃ s : State, s.stbyReq = false ∧ s.lock = .standby) ∧
    (∃ s : State, s.stbyReq = false ∧ s.lock = .free) ∧
    ∃ (s : State) (j : Nat), s.stbyReq = false ∧ s.lock = .conn j :=
  ⟨⟨{ sRun with lock := .standby }, rfl, rfl⟩, ⟨sRun, rfl, rfl⟩, sHeld false, 0, rfl, rfl⟩

theorem witness_standbyOff : ∃ (s : State) (i : Nat) (c : Conn) (ins : Instr), s.stbyReq = false ∧
    s.lock = .standby ∧ s.conns[i]? = some c ∧ c.fsm = .disp ∧ c.cmd = some ins :=
  ⟨{ sDisp ⟨0, 0x42, 0, 0⟩ [] with lock := .standby }, 0, dispConn ⟨0, 0x42, 0, 0⟩ [], .unknown 0 0x42 [],
    rfl, rfl, rfl, rfl, by decide⟩

theorem witness_refusedControl : ∃ s : State, s.stbyReq = false ∧ s.lock ≠ .standby :=
  ⟨sHeld false, rfl, by decide⟩

theorem witness_controllerWaits : ∃ (s : State) (i : Instr), s.stbyReq = true ∧ i.port = .control :=
  ⟨{ sHeld false with stbyReq := true }, .ctrlStop, rfl, rfl⟩

theorem witness_controlFrame : ∃ (i : Instr) (s t : State), i.port = .control ∧ exec i s = .next t ∧
    i ≠ .ctrlStart ∧ i ≠ .ctrlStop ∧ i ≠ .ctrlStandbyOn ∧ i ≠ .ctrlStandbyOff :=
  ⟨.ctrlIllegal 0, sRun, _, rfl, rfl, by decide⟩

theorem witness_standbyRequest_grant : ∃ (s : State) (rest : List Move), s.stbyReq = true ∧
    s.sched = .grant :: rest ∧ s.lock = .free :=
  ⟨{ sRun with stbyReq := true, sched := [.grant] }, [], rfl, rfl, rfl⟩

theorem witness_standbyRequest_expiry : ∃ (s : State) (rest : List Move), s.stbyReq = true ∧
    s.sched = .standbyWaitExpired :: rest ∧ s.lock ≠ .free :=
  ⟨{ sHeld false with stbyReq := true, sched := [.standbyWaitExpired] }, [], rfl, rfl, by decide⟩

theorem witness_standbyRequest_none : ∃ s : State, s.stbyReq = false ∧ s.lock = .free ∧ s.sched = [.grant] :=
  ⟨{ sRun with sched := [.grant] }, rfl, rfl, rfl⟩

theorem witness_standbyRequest_none_expiry : ∃ s : State, s.stbyReq = false ∧
    s.sched = [.standbyWaitExpired] := ⟨{ sHeld false with sched := [.standbyWaitExpired] }, rfl, rfl⟩

theorem witness_standbyRequest_raised : ∃ (s t : State) (m : Move), enabled s m = true ∧
    act m s = .next t ∧ t.stbyReq ≠ s.stbyReq ∧ t.stbyReq = true :=
  ⟨sHeld false, _, .ctrl 0x03 true, rfl, rfl, nofun, rfl⟩

theorem witness_standbyRequest_cleared : ∃ (s t : State) (m : Move), enabled s m = true ∧
    act m s = .next t ∧ t.stbyReq ≠ s.stbyReq ∧ t.stbyReq = false :=
  ⟨{ sHeld false with stbyReq := true }, _, .standbyWaitExpired, rfl, rfl, nofun, rfl⟩

theorem witness_lutEntry : ∃ g w : B64, gammaLegal g ∧ f64IsFinite w = true ∧ f64IsNonPos w = true :=
  ⟨b64One, 0x8000000000000000, gammaLegal_one, by decide +kernel, by decide +kernel⟩

theorem witness_gammaCheck : f64IsFinite 0x8000000000000000 = true ∧
    f64IsNonPos 0x8000000000000000 = true ∧ f64IsFinite 0x0000000000000001 = true ∧
    f64IsNonPos 0x0000000000000001 = false := by decide +kernel

theorem witness_lutCompute : ∃ (p p' : CcParams) (s t t' : State), lutCompute 0 p s = (.fail, t) ∧
    lutCompute 0 p' s = (.ok, t') := by
  refine ⟨⟨0x8000000000000000, b64One, b64One, b64One⟩, paramsReset, sRun, _, _, lutCompute_fail
    (e := (.invalidGamma, .b64 0x8000000000000000)) (by decide +kernel) 0 sRun, lutCompute_ok (by decide +kernel) 0 sRun⟩

theorem witness_lutApply : ∃ (px : List Pixel) (j : Nat) (p : Pixel), px[j]? = some p :=
  ⟨[⟨0, 128, 255⟩], 0, ⟨0, 128, 255⟩, rfl⟩

theorem witness_bodyParser : ∃ (body : List Byte) (p : CcParams), ccParse body = some p :=
  ⟨ccExampleBody, ccExampleParams, by decide +kernel⟩

theorem witness_reset : ∃ (s : State) (rest : List Move), s.sched = .reset :: rest ∧ s.fw ≠ 0 ∧
    s.lock ≠ .free := ⟨{ sHeld true with fw := 0b1111, sched := [.reset] }, [], rfl, by decide, by decide⟩

theorem witness_instanceSize : (1 : Nat) ≤ 1 := by decide

/-! States of the invariant. Their table is the table of the reset parameters as the model computes it. -/

theorem openConn_inv (l : Lock) (i : Nat) : ConnInv l i openConn :=
  ⟨Memory.wf_nil, nofun, nofun, fun _ => by decide, nofun, nofun⟩

theorem closedConn_inv (l : Lock) (i : Nat) : ConnInv l i Conn.reset := ConnInv.reset l i

theorem dispConn_inv {l : Lock} {i : Nat} {h : HeaderBytes} {p : List Byte} {b : Bool}
    (hb : Memory.wf ((List.range p.length).zip p))
    (hp : Memory.readRange ((List.range p.length).zip p) 0 h.length.toNat = some p)
    (hc : b = true → l = .conn i) : ConnInv l i { dispConn h p with closing := b } :=
  ⟨hb, hc, nofun, nofun, nofun, fun _ => ⟨rfl, rfl, rfl, p, hp, rfl⟩⟩

/-- A state with two records is in the invariant when its parts are. -/
theorem twoConns_inv {s : State} {c0 c1 : Conn} (hs : s.conns = [c0, c1])
    (h0 : ConnInv s.lock 0 c0) (h1 : ConnInv s.lock 1 c1)
    (hl : ∀ i, s.lock = .conn i → s.connIn i .disp = true ∧ s.out ≠ .none)
    (ho : s.out ≠ .none → ∃ i, s.lock = .conn i) (hq : s.stbyReq = false)
    (hp : s.params = paramsReset) (ht : s.lut = lutTable s.cfg.roundTie s.params)
    (hr : s.run = .running ∨ (s.run = .terminated ∧ ∀ c ∈ s.conns, c.fsm = .closed ∨ c.closing = true) ∨
      ∀ c ∈ s.conns, c.fsm = .closed) : BlockInv s := by
  refine ⟨by simp [hs], fun i c hc => ?_, hl, ho, by simp [hq], by rw [hp]; exact gammaLegal_one,
    by rw [hp]; exact whitepointsLegal_reset, ht, fun hrun => ?_, fun hrun => ?_⟩
  · rw [hs] at hc
    match i, hc with
    | 0, hc => cases hc; exact h0
    | 1, hc => cases hc; exact h1
  · rcases hr with hr | ⟨hr, -⟩ | hr
    · rcases hrun with h | h <;> rw [hr] at h <;> cases h
    · rcases hrun with h | h <;> rw [hr] at h <;> cases h
    · exact hr
  · rcases hr with hr | ⟨-, hr⟩ | hr
    · rw [hr] at hrun
      cases hrun
    · exact hr
    · exact fun c hc => .inl (hr c hc)

/-- The table as the model computes it from the parameters. -/
def withTable (s : State) : State := { s with lut := lutTable s.cfg.roundTie s.params }

theorem sDisp_inv : BlockInv (withTable (sDisp ⟨0, 0x00, 0, 3⟩ [1, 2, 3])) :=
  twoConns_inv rfl (dispConn_inv (h := ⟨0, 0x00, 0, 3⟩) (p := [1, 2, 3]) (b := false) (by decide) (by decide)
    nofun) (openConn_inv _ _) nofun
    (fun h => absurd rfl h) rfl rfl rfl (.inl rfl)

theorem sUnknown_inv : BlockInv (withTable (sDisp ⟨0, 0x42, 0, 0⟩ [])) :=
  twoConns_inv rfl (dispConn_inv (h := ⟨0, 0x42, 0, 0⟩) (p := []) (b := false) (by decide) (by decide)
    nofun) (openConn_inv _ _) nofun
    (fun h => absurd rfl h) rfl rfl rfl (.inl rfl)

theorem sStandby_inv : BlockInv (withTable { sRun with lock := .standby }) :=
  twoConns_inv rfl (openConn_inv _ _) (openConn_inv _ _) nofun (fun h => absurd rfl h) rfl rfl rfl (.inl rfl)

theorem sIdle_inv : BlockInv (withTable { State.reset with sched := [.ctrl 0x01 false] }) :=
  twoConns_inv rfl (closedConn_inv _ _) (closedConn_inv _ _) nofun (fun h => absurd rfl h) rfl rfl rfl
    (.inr (.inr (by decide)))

/-- STOP was given while connection 0 waited for its acknowledge. -/
theorem sStopped_inv : BlockInv (withTable { sHeld true with
    run := .terminated, conns := [{ dispConn ⟨0, 0x00, 0, 3⟩ [1, 1, 1] with closing := true }, Conn.reset] }) :=
  twoConns_inv rfl (dispConn_inv (by decide) (by decide) (fun _ => rfl)) (closedConn_inv _ _)
    (fun i h => by cases h; exact ⟨by decide, nofun⟩) (fun _ => ⟨0, rfl⟩) rfl rfl rfl
    (.inr (.inl ⟨rfl, by decide⟩))

theorem witness_pixelsCorrected : ∃ (s : State) (c : Conn), BlockInv s ∧ Ready s c ∧
    s.cfg.hasPixConsumer = true ∧ ([⟨1, 2, 3⟩] : List Pixel)[0]? = some ⟨1, 2, 3⟩ :=
  ⟨_, dispConn ⟨0, 0x00, 0, 3⟩ [1, 2, 3], sDisp_inv, ⟨rfl, rfl, rfl, rfl, rfl⟩, rfl, rfl⟩

theorem witness_stepKeepsInvariant : ∃ s t : State, BlockInv s ∧ step s = .next t ∧ s.sched ≠ [] :=
  ⟨_, _, sUnknown_inv, rfl, nofun⟩

theorem witness_standbyBarrier : ∃ (s t : State) (m : Move), BlockInv s ∧ s.lock = .standby ∧
    enabled s m = true ∧ act m s = .next t ∧ m ≠ .reset ∧ ∀ b, m ≠ .ctrl 0x04 b :=
  ⟨_, _, .ctrl 0x02 true, sStandby_inv, rfl, rfl, rfl, nofun, nofun⟩

theorem witness_standbyEntered_request : ∃ (s t : State) (m : Move), BlockInv s ∧ s.lock ≠ .standby ∧
    enabled s m = true ∧ act m s = .next t ∧ t.lock = .standby ∧ m = .ctrl 0x03 true :=
  ⟨_, _, .ctrl 0x03 true, sUnknown_inv, nofun, rfl, rfl, rfl, rfl⟩

/-- A request waits and the lock has just become free. -/
theorem sRequest_inv : BlockInv { withTable (sDisp ⟨0, 0x42, 0, 0⟩ []) with stbyReq := true } :=
  ⟨sUnknown_inv.slots, sUnknown_inv.conns, sUnknown_inv.lockHeld, sUnknown_inv.outHeld, fun _ => nofun,
    sUnknown_inv.gamma, sUnknown_inv.whitepoints, sUnknown_inv.table, sUnknown_inv.notServing,
    sUnknown_inv.stopped⟩

theorem witness_standbyEntered_grant : ∃ (s t : State) (m : Move), BlockInv s ∧ s.lock ≠ .standby ∧
    enabled s m = true ∧ act m s = .next t ∧ t.lock = .standby ∧ m = .grant ∧ s.stbyReq = true :=
  ⟨_, _, .grant, sRequest_inv, nofun, rfl, rfl, rfl, rfl, rfl⟩

theorem witness_errorsIsolated_event : ∃ (s t : State) (m : Move), BlockInv s ∧ enabled s m = true ∧
    act m s = .next t ∧ m ≠ .reset ∧ t.events ≠ s.events ∧ m = .dispatch 0 ∧ (1 : Nat) ≠ 0 :=
  ⟨_, _, .dispatch 0, sUnknown_inv, by decide, rfl, nofun, nofun, rfl, by decide⟩

theorem witness_errorsIsolated_ack : ∃ (s t : State) (m : Move), BlockInv s ∧ enabled s m = true ∧
    act m s = .next t ∧ m = .consAck ∧ s.lock = .conn 0 ∧ t.events ≠ s.events :=
  ⟨_, _, .consAck, sStopped_inv, rfl, rfl, rfl, rfl, nofun⟩

theorem witness_errorsIsolated_bind : ∃ (s t : State) (m : Move), BlockInv s ∧ enabled s m = true ∧
    act m s = .next t ∧ m ≠ .reset ∧ t.run = .failed :=
  ⟨_, _, .ctrl 0x01 false, sIdle_inv, rfl, rfl, nofun, rfl⟩

/-- Connection 0 holding the colour correction of W2, or firmware flags 0x25. -/
def sCc : State := sDisp ⟨0x00, 0xFF, 0x00, 0x26⟩ ([0, 1, 0, 1] ++ ccExampleBody)

theorem witness_oneWriter_params : gives (act (.dispatch 0) sCc) (fun t => decide (t.params ≠ sCc.params)) =
    true ∧ Move.dispatch 0 ≠ .reset := by decide +kernel

theorem witness_oneWriter_flags :
    gives (act (.dispatch 0) (sDisp ⟨0x00, 0xFF, 0x00, 0x05⟩ [0, 1, 0, 2, 0x25])) (fun t =>
      decide (t.fw ≠ 0)) = true := by decide +kernel

theorem witness_outputsAppended : ∃ (s t : State) (m : Move), act m s = .next t ∧ m ≠ .reset ∧
    Move.reset ∈ s.sched ∧ t.events ≠ s.events :=
  ⟨{ sRun with sched := [.reset] }, _, .ctrl 0x05 true, rfl, nofun, .head _, nofun⟩

/-- Codes at both sides of the bound 0x31: 0x30 of a connection and 0x31 of none. -/
theorem witness_eventRecords : ∃ (s t s' t' : State) (e e' : EventRec),
    act (.dispatch 0) s = .next t ∧ t.events = s.events ++ [e] ∧ e.code.toByte = 0x30 ∧ e.conn = some 0 ∧
    act .standbyWaitExpired s' = .next t' ∧ t'.events = s'.events ++ [e'] ∧ e'.code.toByte = 0x31 ∧
    e'.conn = none := by
  refine ⟨{ sDisp ⟨0, 0xFF, 0, 0x26⟩ ([0, 1, 0, 1] ++ ccExampleBody) with lock := .standby }, _, sRun, _,
    ⟨.ccSuppressedStandby, some 0, []⟩, ⟨.lockTimeout, none, []⟩, rfl, ?_, rfl, rfl, rfl, rfl, rfl, rfl⟩
  decide +kernel

theorem witness_eventRecords_dispatch : ∃ (s t : State) (e : EventRec), BlockInv s ∧
    act (.dispatch 0) s = .next t ∧ t.events = s.events ++ [e] :=
  ⟨_, _, ⟨.unknownCommand, some 0, [.num 0x42]⟩, sUnknown_inv, rfl, rfl⟩

theorem witness_statusOutputs_start : ∃ s : State, s.stbyReq = false ∧ s.lock = .free ∧ s.run = .idle ∧
    s.bindOk = true := ⟨{ State.reset with bindOk := true }, rfl, rfl, rfl, rfl⟩

theorem witness_runState : ∃ (s t : State) (m : Move), BlockInv s ∧ act m s = .next t ∧ t.run ≠ s.run :=
  ⟨_, _, .ctrl 0x02 true, sUnknown_inv, rfl, nofun⟩

theorem witness_afterStop : ∃ (s t : State) (m : Move) (i : Nat) (c : Conn), BlockInv s ∧
    enabled s m = true ∧ act m s = .next t ∧ s.run = .terminated ∧ m ≠ .reset ∧ t.conns[i]? = some c ∧
    c.fsm ≠ .closed :=
  ⟨_, _, .ctrl 0x05 true, 0, { dispConn ⟨0, 0x00, 0, 3⟩ [1, 1, 1] with closing := true }, sStopped_inv, rfl, rfl,
    rfl, nofun, rfl, nofun⟩

end Sys2Proof.Tests
end

section
/-! The decoder of 40_frame_decoder.md: one equation per branch of `decodePayload` (R111 to R119), the
bytes of a pixel (R84), and the statements about the Command a frame gives. -/

namespace Sys2Proof

theorem decodePayload_setpix {h : HeaderBytes} (p : List Byte) (hc : h.command = 0x00)
    (hl : 3 ≤ h.length.toNat) :
    decodePayload h p = .setpix h.channel (triples p).1 (triples p).2 := by
  unfold decodePayload
  rw [if_pos hc, if_pos hl]

theorem decodePayload_setpixNoop {h : HeaderBytes} (p : List Byte) (hc : h.command = 0x00)
    (hl : h.length.toNat ≤ 2) : decodePayload h p = .setpixNoop h.channel p := by
  unfold decodePayload
  rw [if_pos hc, if_neg (by omega)]

theorem decodePayload_sysexShort {h : HeaderBytes} (p : List Byte) (hc : h.command = 0xFF)
    (hl : h.length.toNat ≤ 3) : decodePayload h p = .sysexShort h.channel p := by
  unfold decodePayload
  rw [if_neg (by simp [hc]), if_pos hc, if_pos hl]

theorem decodePayload_subHeader {h : HeaderBytes} (p0 p1 p2 p3 : Byte) (body : List Byte)
    (hc : h.command = 0xFF) (hl : 3 < h.length.toNat) :
    decodePayload h (p0 :: p1 :: p2 :: p3 :: body) =
      decodeSubHeader h.channel (u16be p0 p1) (u16be p2 p3) body := by
  unfold decodePayload
  rw [if_neg (by simp [hc]), if_pos hc, if_neg (by omega)]

theorem decodePayload_unknown {h : HeaderBytes} (p : List Byte) (h0 : h.command ≠ 0x00)
    (hF : h.command ≠ 0xFF) : decodePayload h p = .unknown h.channel h.command p := by
  unfold decodePayload
  rw [if_neg h0, if_neg hF]

/-- The classification keeps the two words and the body, so every sysEx with a sub-header gives the
same Command (R113). -/
theorem decodeSubHeader_command (ch : Byte) (sid cid : U16) (body : List Byte) :
    (decodeSubHeader ch sid cid body).command = some (.sysEx sid cid body) := by
  unfold decodeSubHeader
  split
  next hs =>
    subst hs
    split
    next hc => subst hc; rfl
    next =>
      split
      next hc => subst hc; rfl
      next => rfl
  next => rfl

theorem u16be_eq_ofNat (hi lo : Byte) : u16be hi lo = BitVec.ofNat 16 (256 * hi.toNat + lo.toNat) := by
  rw [← u16be_toNat, BitVec.ofNat_toNat, BitVec.setWidth_eq]

/-- Pixel `j` stands at the offsets 3j, 3j+1, 3j+2 of the bytes written for the pixels (R84). -/
theorem getElem?_flatMap_pixelBytes {px : List Pixel} {j : Nat} {c : Pixel} (hj : px[j]? = some c)
    (tr : List Byte) :
    (px.flatMap pixelBytes ++ tr)[3 * j]? = some c.r ∧
      (px.flatMap pixelBytes ++ tr)[3 * j + 1]? = some c.g ∧
      (px.flatMap pixelBytes ++ tr)[3 * j + 2]? = some c.b := by
  induction px generalizing j with
  | nil => simp at hj
  | cons d rest ih =>
    cases j with
    | zero =>
      obtain rfl : d = c := by simpa using hj
      exact ⟨rfl, rfl, rfl⟩
    | succ k => exact ih (j := k) (by simpa using hj)

/-- Pixel `j` of a payload is its bytes 3j, 3j+1, 3j+2 (R111). -/
theorem getElem?_triples {p : List Byte} {j : Nat} {c : Pixel} (hj : (triples p).1[j]? = some c) :
    p[3 * j]? = some c.r ∧ p[3 * j + 1]? = some c.g ∧ p[3 * j + 2]? = some c.b := by
  have h := getElem?_flatMap_pixelBytes hj (triples p).2
  rwa [pixelBytes_triples] at h

theorem triples_length_eq_div (p : List Byte) : (triples p).1.length = p.length / 3 := by
  have := triples_length p
  omega

/-- A payload with a sub-header is its first four bytes and the body behind them (R85). -/
theorem exists_subHeader_bytes {p : List Byte} (hp : 3 < p.length) :
    ∃ p0 p1 p2 p3 : Byte, p = p0 :: p1 :: p2 :: p3 :: p.drop 4 := by
  match p, hp with
  | p0 :: p1 :: p2 :: p3 :: _, _ => exact ⟨p0, p1, p2, p3, rfl⟩

/-- Settles O5: the frame decodes to the triples of its payload, whose pixels stand at their offsets. -/
theorem pixelFrameDecodesToItsTriples : Obligations.PixelFrameDecodesToItsTriples := by
  intro h p hc hp
  refine ⟨fun hl => ⟨(triples p).1, ?_, ?_, fun j hj => ?_⟩, fun hl => ?_⟩
  · rw [decodePayload_setpix p hc hl]; rfl
  · rw [triples_length_eq_div, hp]
  · have hlt : j < (triples p).1.length := by rwa [triples_length_eq_div, hp]
    exact ⟨_, _, _, List.getElem?_eq_getElem hlt, getElem?_triples (List.getElem?_eq_getElem hlt)⟩
  · rw [decodePayload_setpixNoop p hc hl]; rfl

/-- Settles O6: the four forms of a sysEx with a sub-header give one Command. -/
theorem sysExFrameDecodesToItsSubHeader : Obligations.SysExFrameDecodesToItsSubHeader := by
  intro h p hc hp
  refine ⟨fun hl => ?_, fun hl => ?_⟩
  · obtain ⟨p0, p1, p2, p3, hbytes⟩ := exists_subHeader_bytes (hp ▸ hl)
    refine ⟨p0, p1, p2, p3, hbytes, ?_⟩
    calc (decodePayload h p).command
        = (decodePayload h (p0 :: p1 :: p2 :: p3 :: p.drop 4)).command := by rw [← hbytes]
      _ = some (.sysEx (u16be p0 p1) (u16be p2 p3) (p.drop 4)) := by
        rw [decodePayload_subHeader _ _ _ _ _ hc hl, decodeSubHeader_command]
      _ = _ := by rw [u16be_eq_ofNat, u16be_eq_ofNat]
  · rw [decodePayload_sysexShort p hc hl]; rfl

/-- Settles O7: neither command byte's branch is taken. -/
theorem otherCommandByteDecodesToUnknown : Obligations.OtherCommandByteDecodesToUnknown := by
  intro h p h0 hF
  rw [decodePayload_unknown p h0 hF]
  exact ⟨rfl, rfl⟩

end Sys2Proof
end

section
/-! The LUT engine of 41_color_corrector.md: what LUT_COMPUTE can do (R142), the pixels LUT_APPLY gives
(R145), and the statements about the two operations. -/

namespace Sys2Proof.Machine

open Sys2Proof

/-- LUT_COMPUTE either only raises the event of its failed check, or replaces the parameters and the
table (R142). -/
theorem lutCompute_cases {i : Nat} {p : CcParams} {s t : State} {r : ComputeResult}
    (h : lutCompute i p s = (r, t)) :
    (∃ e, paramError p = some e ∧ r = .fail ∧ t = s.emit (connEvent e.1 i [e.2])) ∨
    (paramError p = none ∧ r = .ok ∧
      t = { s with params := p, lut := lutTable s.cfg.roundTie p }) := by
  cases he : paramError p with
  | some e =>
    obtain ⟨rfl, rfl⟩ := Prod.mk.inj ((lutCompute_fail he i s).symm.trans h)
    exact .inl ⟨e, rfl, rfl, rfl⟩
  | none =>
    obtain ⟨rfl, rfl⟩ := Prod.mk.inj ((lutCompute_ok he i s).symm.trans h)
    exact .inr ⟨rfl, rfl, rfl⟩

@[simp] theorem lutApply_length (l : Lut) (px : List Pixel) : (lutApply l px).length = px.length :=
  List.length_map _

theorem lutApply_getElem? {px : List Pixel} {j : Nat} {p : Pixel} (l : Lut) (hj : px[j]? = some p) :
    (lutApply l px)[j]? = some (applyPixel l p) := by
  rw [lutApply, List.getElem?_map, hj, Option.map_some]

end Sys2Proof.Machine

namespace Sys2Proof

open Machine

/-- Settles O43: a failed check only emits its event; on success the new table is that of the new
parameters. -/
theorem lutComputeIsAllOrNothing : Obligations.LutComputeIsAllOrNothing := by
  intro i p s t r h
  obtain ⟨e, -, rfl, rfl⟩ | ⟨-, rfl, rfl⟩ := lutCompute_cases h
  · exact ⟨fun _ => ⟨emit_params s _, fun k j => by rw [emit_lut]⟩, nofun⟩
  · exact ⟨nofun, fun _ => ⟨rfl, lutTable_entry s.cfg.roundTie p⟩⟩

/-- Settles O44: pixel `j` of the output is pixel `j` of the input through the three tables. -/
theorem lutApplyMapsEveryComponent : Obligations.LutApplyMapsEveryComponent := by
  intro l px
  exact ⟨lutApply_length l px, fun j p hj =>
    ⟨applyPixel l p, lutApply_getElem? l hj, rfl, rfl, rfl⟩⟩

end Sys2Proof
end

section
/-! The framer's header and the standby release of 42_framer_control.md: what a header byte does to its
record (R171, R172), when a dispatch may start (R210, R211), and the statements about the two. -/

namespace Sys2Proof.Machine

open Sys2Proof

theorem rxByteConn_hdr {c : Conn} (hf : c.fsm = .hdr) (b : Byte) :
    rxByteConn b c = rxHeaderByte b c := by
  simp only [rxByteConn, hf]

/-- A header byte before the fourth is stored at its position (R171). -/
theorem rxHeaderByte_of_ne {c : Conn} (h : c.hcount ≠ 3) (b : Byte) :
    rxHeaderByte b c = .ok { c with hb := setHeaderByte c.hb c.hcount b, hcount := c.hcount + 1 } :=
  if_neg fun h4 : c.hcount + 1 = 4 => h (Nat.succ.inj h4)

/-- The fourth header byte completes the header (R171). -/
theorem rxHeaderByte_fourth {c : Conn} (h : c.hcount = 3) (b : Byte) :
    rxHeaderByte b c = headerComplete { c with hb := { c.hb with b3 := b }, hcount := 4 } := by
  simp only [rxHeaderByte, h, setHeaderByte, Nat.reduceAdd, if_true]

/-- A header that declares a payload moves to PAY (R172). -/
theorem headerComplete_of_ne {c : Conn} (h : c.hb.length ≠ 0) :
    headerComplete c = .ok { c with len := c.hb.length, pcount := 0, fsm := .pay } :=
  if_neg h

/-- A header that declares none has its empty payload decoded at once (R172, R174). -/
theorem headerComplete_empty {c : Conn} (h : c.hb.length = 0) :
    headerComplete c = .ok { c with
      len := c.hb.length, pcount := 0, fsm := .disp, cmd := some (decodePayload c.hb []) } := by
  simp [headerComplete, payloadComplete, Conn.payload, Memory.readRange, h]

/-- A decoded command may take a free lock (R211). -/
theorem enabled_dispatch_of_free {s : State} {i : Nat} {c : Conn} {ins : Instr}
    (hc : s.conns[i]? = some c) (hf : c.fsm = .disp) (hi : c.cmd = some ins) (hl : s.lock = .free) :
    enabled s (.dispatch i) = true := by
  simp [enabled, dispatchEnabled, hc, hf, hi, hl]

theorem standbyOffOp_of_standby {s : State} (h : s.lock = .standby) :
    standbyOffOp s = (s.setLock .free).respond .ok :=
  if_pos h

end Sys2Proof.Machine

namespace Sys2Proof

open Machine

/-- Settles O12: the step is what the framer does to the record, a store for the first three bytes and
the header's completion for the fourth. -/
theorem headerByteReception : Obligations.HeaderByteReception := by
  intro s rest i b c hs hc hf
  have received {c' : Conn} (h : rxHeaderByte b c = .ok c') :
      step s = .next { s.putConn i c' with sched := rest } :=
    step_rxByte hs hc (.inl hf) ((rxByteConn_hdr hf b).trans h)
  have stored (h : c.hcount ≠ 3) := received (rxHeaderByte_of_ne h b)
  refine ⟨fun hn => ?_, fun hn => ?_, fun hn => ?_, fun hn => ?_⟩
  · simpa [hn, setHeaderByte] using stored (by omega)
  · simpa [hn, setHeaderByte] using stored (by omega)
  · simpa [hn, setHeaderByte] using stored (by omega)
  · have fourth := rxHeaderByte_fourth hn b
    exact ⟨u16be c.hb.b2 b, u16be_toNat c.hb.b2 b,
      fun hl => received (fourth.trans (headerComplete_of_ne hl)),
      fun hl => received (fourth.trans (headerComplete_empty hl))⟩

/-- Settles O35: the release leaves the lock free, and a free lock may be taken. -/
theorem standbyOffFreesTheLock : Obligations.StandbyOffFreesTheLock := by
  intro s hr hl
  refine ⟨?_, fun i c ins hc hf hi => enabled_dispatch_of_free hc hf hi rfl⟩
  rw [exec_ctrlStandbyOff, controlOp_ready hr, standbyOffOp_of_standby hl]
  rfl

end Sys2Proof
end

section
/-! Isolation of errors (60_exceptions.md R242, R243): what each kind of move leaves of the shared
colour state, of the other connections' records and of `run`, and the statement about all of them. -/

namespace Sys2Proof.Machine

open Sys2Proof

/-- What the connections share and no error may change: `params`, `LUT` and `fw` (R243). -/
def State.shared (s : State) : CcParams × Lut × BitVec 4 := (s.params, s.lut, s.fw)

theorem shared_eq_iff {s t : State} :
    t.shared = s.shared ↔ t.params = s.params ∧ t.lut = s.lut ∧ t.fw = s.fw := by
  simp [State.shared]

/-- A command that writes the shared state reports no event (R244). -/
theorem commandOf_quiet_or_shared (ins : Instr) (i : Nat) (s : State) :
    (commandOf ins i s).events = s.events ∨ (commandOf ins i s).shared = s.shared := by
  rcases commandOf_params ins i s with ⟨hp, hl⟩ | ⟨_, _, _, -, -, -, -, -, hq⟩
  · rcases commandOf_fw ins i s with hf | ⟨_, _, _, -, -, hq⟩
    · exact .inr (shared_eq_iff.mpr ⟨hp, hl, hf⟩)
    · exact .inl hq
  · exact .inl hq

theorem endIfNoOutput_shared (i : Nat) (s : State) : (endIfNoOutput i s).shared = s.shared := by
  obtain ⟨f, es, l, h, -⟩ := endIfNoOutput_spec i s
  rw [h]
  rfl

/-- The end of a dispatch reports only that STOP came in between (R222). -/
theorem endIfNoOutput_events {s : State} {i : Nat} {c : Conn} (hc : s.conns[i]? = some c)
    (ho : c.closing = false) : (endIfNoOutput i s).events = s.events := by
  rcases endIfNoOutput_cases i s with h | ⟨-, h⟩
  · rw [h]
  · rw [h, dispatchEnd_open hc ho]
    rfl

/-- No record is closing while the lock is free (R27). -/
theorem BlockInv.not_closing {s : State} (hs : BlockInv s) (hl : s.lock = .free) {i : Nat} {c : Conn}
    (hc : s.conns[i]? = some c) : c.closing = false := by
  refine Bool.eq_false_iff.mpr fun ho => ?_
  have := (hs.conns i c hc).closing ho
  rw [hl] at this
  cases this

/-- The latch of a record holds a frame instruction (R26). -/
theorem BlockInv.latched_port {s : State} (hs : BlockInv s) {i : Nat} {c : Conn}
    (hc : s.conns[i]? = some c) {ins : Instr} (hi : c.cmd = some ins) : ins.port = .wire := by
  obtain ⟨-, p, rfl⟩ := (hs.conns i c hc).latched hi
  exact decodePayload_port c.hb p

/-- The dispatch of a command under the invariant reports an event or writes the shared state, never
both: the record is not closing, so the end of the dispatch adds no event to those of the command. -/
theorem dispatch_quiet_or_shared {ins : Instr} {s t : State} (hs : BlockInv s)
    (h : dispatchStart (commandOf ins) s = .next t) : t.events = s.events ∨ t.shared = s.shared := by
  rcases dispatchStart_cases h with rfl | ⟨hd, hl, rfl⟩
  · exact .inl rfl
  · obtain ⟨c, hc, -⟩ := connIn_iff.mp hd
    have hu := (commandOf_frame ins s.cur (s.setLock (.conn s.cur))).conns
    rw [endIfNoOutput_events (by rw [hu]; exact hc) (hs.not_closing hl hc), endIfNoOutput_shared]
    exact commandOf_quiet_or_shared ins s.cur (s.setLock (.conn s.cur))

/-- Serving a connection writes no other record and leaves `run`; the shared state is kept if an event
is reported. -/
theorem act_dispatch_isolated {s t : State} {i : Nat} (hs : BlockInv s)
    (h : act (.dispatch i) s = .next t) :
    (t.events = s.events ∨ t.shared = s.shared) ∧ (∃ f, t.conns = s.conns.modify i f) ∧
      t.run = s.run := by
  have idle : s.conns = s.conns.modify i id := by simp
  rcases serve_cases h with rfl | ⟨c, ins, hc, hi, hx⟩
  · exact ⟨.inl rfl, ⟨id, idle⟩, rfl⟩
  · have hcur : BlockInv { s with cur := i } := hs.of_same rfl rfl rfl rfl rfl rfl rfl rfl
    rcases exec_wire_cases (hs.latched_port hc hi) hx with hd | ⟨_, _, e, -, -, -, rfl⟩
    · have hq := dispatch_quiet_or_shared hcur hd
      rcases dispatch_spec hd with rfl | ⟨-, -, u, f, es, l, rfl, rfl, -⟩
      · exact ⟨hq, ⟨id, idle⟩, rfl⟩
      · exact ⟨hq, ⟨f, rfl⟩, (commandOf_frame ins _ _).run⟩
    · exact ⟨.inr rfl, ⟨Conn.nextHeader, rfl⟩, rfl⟩

/-- The same of every move of one connection, the framer's included (R180). -/
theorem act_conn_isolated {s t : State} {m : Move} {i : Nat} {b : Byte} (hs : BlockInv s)
    (hm : m = .connOpen i ∨ m = .rxByte i b ∨ m = .rxEof i ∨ m = .rxTimeout i ∨ m = .dispatch i)
    (h : act m s = .next t) :
    (t.events = s.events ∨ t.shared = s.shared) ∧ (∃ f, t.conns = s.conns.modify i f) ∧
      t.run = s.run := by
  by_cases hd : m = .dispatch i
  · subst hd
    exact act_dispatch_isolated hs h
  · obtain ⟨f, es, rfl⟩ := act_framer (i := i) (b := b) (by simpa [hd] using hm) h
    exact ⟨.inr rfl, ⟨f, rfl⟩, rfl⟩

/-- An acknowledge writes the record of the dispatch it ends, no other and no shared state (R221). -/
theorem act_consAck_isolated {s t : State} (h : act .consAck s = .next t) :
    t.shared = s.shared ∧ (∃ i f, s.lock = .conn i ∧ t.conns = s.conns.modify i f) ∧
      t.run = s.run := by
  obtain ⟨i, hl, rfl⟩ := consAck_cases h
  obtain ⟨f, es, he, -⟩ := dispatchEnd_cases i (s.present .none)
  rw [he]
  exact ⟨rfl, ⟨i, f, hl, rfl⟩, rfl⟩

/-- What the control operation `ins` leaves: the shared state; and `run` is not made FAILED except by a
START whose bind fails (R181, R242). -/
structure ControlFrame (ins : Instr) (s t : State) : Prop where
  shared : t.shared = s.shared
  fatal : t.run = .failed → s.run = .failed ∨ (s.run = .idle ∧ ins = .ctrlStart ∧ s.bindOk = false)

theorem ControlFrame.of_same {ins : Instr} {s t : State} (hs : t.shared = s.shared)
    (hr : t.run = s.run) : ControlFrame ins s t :=
  ⟨hs, fun h => .inl (hr ▸ h)⟩

theorem startOp_frame (s : State) : ControlFrame .ctrlStart s (startOp s) := by
  unfold startOp
  split
  · exact .of_same rfl rfl
  · rename_i hr
    split
    · exact ⟨rfl, nofun⟩
    · rename_i hb
      exact ⟨rfl, fun _ => .inr ⟨not_not.mp hr, rfl, Bool.eq_false_iff.mpr hb⟩⟩

theorem stopRun_eq_failed {r : RunState} (h : stopRun r = .failed) : r = .failed := by
  cases r
  case failed => rfl
  all_goals cases h

theorem standbyOnOp_frame (s : State) : ControlFrame .ctrlStandbyOn s (standbyOnOp s) := by
  unfold standbyOnOp
  split <;> exact .of_same rfl rfl

theorem standbyOffOp_frame (s : State) : ControlFrame .ctrlStandbyOff s (standbyOffOp s) := by
  unfold standbyOffOp
  split <;> exact .of_same rfl rfl

theorem controlOp_frame {ins : Instr} {apply : State → State} {s t : State}
    (ha : ControlFrame ins s (apply s)) (h : controlOp apply s = .next t) : ControlFrame ins s t := by
  rcases controlOp_cases h with rfl | ⟨-, rfl⟩
  · exact .of_same rfl rfl
  · exact ha

theorem exec_control_frame {ins : Instr} (hp : ins.port = .control) {s t : State}
    (h : exec ins s = .next t) : ControlFrame ins s t := by
  cases ins
  case ctrlStart => exact controlOp_frame (startOp_frame s) h
  case ctrlStop => exact controlOp_frame (apply := stopOp) ⟨rfl, fun hr => .inl (stopRun_eq_failed hr)⟩ h
  case ctrlStandbyOn => exact controlOp_frame (standbyOnOp_frame s) h
  case ctrlStandbyOff => exact controlOp_frame (standbyOffOp_frame s) h
  case ctrlIllegal code =>
    rw [exec_ctrlIllegal] at h
    exact controlOp_frame (.of_same rfl rfl) h
  all_goals cases hp

theorem decodeCtrl_eq_ctrlStart {code : Byte} (h : decodeCtrl code = .ctrlStart) : code = 0x01 := by
  by_contra hc
  unfold decodeCtrl at h
  rw [if_neg hc] at h
  repeat' split at h
  all_goals cases h

/-- What every move but reset leaves: the shared state if it reports an event; and only a failed bind
makes the server FAILED (R243). -/
structure Isolated (m : Move) (s t : State) : Prop where
  shared : t.events = s.events ∨ t.shared = s.shared
  fatal : t.run = .failed → s.run = .failed ∨ (s.run = .idle ∧ m = .ctrl 0x01 false)

theorem Isolated.of_run {m : Move} {s t : State} (hs : t.events = s.events ∨ t.shared = s.shared)
    (hr : t.run = s.run) : Isolated m s t :=
  ⟨hs, fun h => .inl (hr ▸ h)⟩

theorem act_ctrl_isolated {s t : State} {code : Byte} {b : Bool} (h : act (.ctrl code b) s = .next t) :
    Isolated (.ctrl code b) s t := by
  obtain ⟨hs, hf⟩ := exec_control_frame (decodeCtrl_port code) h
  refine ⟨.inr hs, fun hr => (hf hr).imp_right ?_⟩
  rintro ⟨hi, hc, rfl⟩
  exact ⟨hi, by rw [decodeCtrl_eq_ctrlStart hc]⟩

theorem act_isolated {s t : State} {m : Move} (hs : BlockInv s) (h : act m s = .next t)
    (hr : m ≠ .reset) : Isolated m s t := by
  have conn {i : Nat} {b : Byte} (hm : m = .connOpen i ∨ m = .rxByte i b ∨ m = .rxEof i ∨
      m = .rxTimeout i ∨ m = .dispatch i) : Isolated m s t := by
    obtain ⟨hq, -, hrun⟩ := act_conn_isolated hs hm h
    exact .of_run hq hrun
  cases m with
  | connOpen i => exact conn (b := 0) (.inl rfl)
  | rxByte i b => exact conn (.inr (.inl rfl))
  | rxEof i => exact conn (b := 0) (.inr (.inr (.inl rfl)))
  | rxTimeout i => exact conn (b := 0) (.inr (.inr (.inr (.inl rfl))))
  | dispatch i => exact conn (b := 0) (.inr (.inr (.inr (.inr rfl))))
  | consAck =>
    obtain ⟨hq, -, hrun⟩ := act_consAck_isolated h
    exact .of_run (.inr hq) hrun
  | ctrl code b => exact act_ctrl_isolated h
  | standbyWaitExpired =>
    cases h
    exact .of_run (.inr rfl) rfl
  | grant =>
    cases h
    exact .of_run (.inr rfl) rfl
  | reset => exact absurd rfl hr

end Sys2Proof.Machine

namespace Sys2Proof

open Machine

/-- Settles O53: a move of one connection and an acknowledge modify one record; a dispatch that writes
the shared state reports nothing, since under the invariant no record is closing while the lock is
free; and only a START whose bind fails sets `run` to FAILED. -/
theorem errorsAreIsolated : Obligations.ErrorsAreIsolated := by
  intro s t m hs _ h hr
  obtain ⟨hq, hf⟩ := act_isolated hs h hr
  have others {i j : Nat} {f : Conn → Conn} (ht : t.conns = s.conns.modify i f) (hj : j ≠ i) :
      t.conns[j]? = s.conns[j]? := by
    rw [ht]
    exact modifyConn_other hj f
  refine ⟨fun he => shared_eq_iff.mp (hq.resolve_left he), fun i b hm j hj => ?_, ?_, hf⟩
  · obtain ⟨-, ⟨f, ht⟩, -⟩ := act_conn_isolated hs hm h
    exact others ht hj
  · rintro i rfl hl j hj
    obtain ⟨-, ⟨k, f, hk, ht⟩, -⟩ := act_consAck_isolated h
    obtain rfl : k = i := Lock.conn.inj (hk.symm.trans hl)
    exact others ht hj

end Sys2Proof
end

section
/-! The encoding of frames and control codes (30_encoding.md): the decode map row by row (R88), the
header a payload is framed with (R80, R81), and the statements that decode and encode undo each other. -/

namespace Sys2Proof

/-- The header `frameBytes` writes before its payload (R80). -/
def frameHeader (ch cmd : Byte) (p : List Byte) : HeaderBytes :=
  ⟨ch, cmd, (BitVec.ofNat 16 p.length).extractLsb' 8 8, (BitVec.ofNat 16 p.length).extractLsb' 0 8⟩

@[simp] theorem frameHeader_channel (ch cmd : Byte) (p : List Byte) :
    (frameHeader ch cmd p).channel = ch := rfl

@[simp] theorem frameHeader_command (ch cmd : Byte) (p : List Byte) :
    (frameHeader ch cmd p).command = cmd := rfl

theorem frameHeader_length (ch cmd : Byte) {p : List Byte} (hp : p.length ≤ 65535) :
    (frameHeader ch cmd p).length.toNat = p.length :=
  header_length_frame ch cmd hp

theorem frameBytes_eq (ch cmd : Byte) (p : List Byte) :
    frameBytes ch cmd p = [(frameHeader ch cmd p).b0, (frameHeader ch cmd p).b1,
      (frameHeader ch cmd p).b2, (frameHeader ch cmd p).b3] ++ p := rfl

/-- A header's own bytes frame the payload it declares. -/
theorem frameBytes_of_header {h : HeaderBytes} {p : List Byte} (hp : p.length = h.length.toNat) :
    frameBytes h.channel h.command p = [h.b0, h.b1, h.b2, h.b3] ++ p := by
  have hl : u16Bytes (BitVec.ofNat 16 p.length) = [h.b2, h.b3] := by
    rw [hp, BitVec.ofNat_toNat, BitVec.setWidth_eq]
    exact u16Bytes_u16be h.b2 h.b3
  rw [frameBytes, hl]
  rfl

/-- A payload written from its sub-header is classified by its two words (R85, R88). -/
theorem decodePayload_sysexBytes {h : HeaderBytes} (sid cid : U16) (body : List Byte)
    (hc : h.command = 0xFF) (hl : 3 < h.length.toNat) :
    decodePayload h (sysexBytes sid cid body) = decodeSubHeader h.channel sid cid body := by
  have := decodePayload_subHeader (sid.extractLsb' 8 8) (sid.extractLsb' 0 8) (cid.extractLsb' 8 8)
    (cid.extractLsb' 0 8) body hc hl
  rwa [u16be_u16Bytes, u16be_u16Bytes] at this

/-- A well-formed frame instruction is written as one frame, and the frame's header and payload decode
to it (R80, R84, R85, R88). -/
theorem encode_frame {i : Instr} (hi : i.port = .wire) (hw : i.wf = true) :
    ∃ ch cmd p, encode i = frameBytes ch cmd p ∧ p.length ≤ 65535 ∧
      decodePayload (frameHeader ch cmd p) p = i := by
  have sysex (ch : Byte) (sid cid : U16) (body : List Byte) (hb : body.length + 4 ≤ 65535) :
      decodePayload (frameHeader ch 0xFF (sysexBytes sid cid body)) (sysexBytes sid cid body) =
        decodeSubHeader ch sid cid body := by
    have hl := sysexBytes_length sid cid body
    exact decodePayload_sysexBytes sid cid body rfl (by rw [frameHeader_length] <;> omega)
  cases i with
  | setpix ch px tr =>
    simp only [Instr.wf, Bool.and_eq_true, decide_eq_true_eq] at hw
    obtain ⟨⟨hpx, htr⟩, hlen⟩ := hw
    have ht := triples_pixelBytes px htr
    have hl := (triples_length (px.flatMap pixelBytes ++ tr)).1
    simp only [ht] at hl
    refine ⟨ch, 0x00, _, rfl, by omega, ?_⟩
    rw [decodePayload_setpix _ rfl (by rw [frameHeader_length] <;> omega), ht]
    rfl
  | setpixNoop ch p =>
    have hl : p.length ≤ 2 := of_decide_eq_true hw
    exact ⟨ch, 0x00, p, rfl, by omega,
      decodePayload_setpixNoop p rfl (by rw [frameHeader_length] <;> omega)⟩
  | sysexShort ch p =>
    have hl : p.length ≤ 3 := of_decide_eq_true hw
    exact ⟨ch, 0xFF, p, rfl, by omega,
      decodePayload_sysexShort p rfl (by rw [frameHeader_length] <;> omega)⟩
  | sysexCc ch body =>
    have hb : body.length + 4 ≤ 65535 := of_decide_eq_true hw
    exact ⟨ch, 0xFF, _, rfl, by rwa [sysexBytes_length], sysex ch 1 1 body hb⟩
  | sysexFwflags ch body =>
    have hb : body.length + 4 ≤ 65535 := of_decide_eq_true hw
    exact ⟨ch, 0xFF, _, rfl, by rwa [sysexBytes_length], sysex ch 1 2 body hb⟩
  | sysexExtUnrec ch cid body =>
    simp only [Instr.wf, Bool.and_eq_true, decide_eq_true_eq] at hw
    obtain ⟨⟨h1, h2⟩, hb⟩ := hw
    refine ⟨ch, 0xFF, _, rfl, by rwa [sysexBytes_length], (sysex ch 1 cid body hb).trans ?_⟩
    rw [decodeSubHeader, if_pos rfl, if_neg h1, if_neg h2]
  | sysexDevUnrec ch sid cid body =>
    simp only [Instr.wf, Bool.and_eq_true, decide_eq_true_eq] at hw
    obtain ⟨hs, hb⟩ := hw
    refine ⟨ch, 0xFF, _, rfl, by rwa [sysexBytes_length], (sysex ch sid cid body hb).trans ?_⟩
    rw [decodeSubHeader, if_neg hs]
  | unknown ch raw p =>
    simp only [Instr.wf, Bool.and_eq_true, decide_eq_true_eq] at hw
    obtain ⟨⟨h0, hF⟩, hl⟩ := hw
    exact ⟨ch, raw, p, rfl, hl, decodePayload_unknown p h0 hF⟩
  | ctrlStart | ctrlStop | ctrlStandbyOn | ctrlStandbyOff | ctrlIllegal => cases hi

/-- Settles O1: the encoding is one frame, which the stream decoder reads to its end. -/
theorem decodeOfEncodedFrameIsTheInstruction : Obligations.DecodeOfEncodedFrameIsTheInstruction := by
  intro i rest hi hw
  obtain ⟨ch, cmd, p, he, hp, hd⟩ := encode_frame hi hw
  rw [he, decodeFrame_frameBytes ch cmd hp rest]
  exact congrArg (fun x => Except.ok (x, rest)) hd

/-- A word with a known value has known bytes. -/
theorem bytes_of_u16be_eq {hi lo : Byte} {v : U16} (h : u16be hi lo = v) : [hi, lo] = u16Bytes v := by
  rw [← h, u16Bytes_u16be]

/-- Settles O8: the branches of the decoder, by the command byte, the length and the two words. -/
theorem decodeMapSelectsOneForm : Obligations.DecodeMapSelectsOneForm := by
  intro h p hp
  by_cases h0 : h.command = 0x00
  · by_cases hl : 3 ≤ h.length.toNat
    · rw [decodePayload_setpix p h0 hl]
      have ⟨hlen, htr⟩ := triples_length p
      exact ⟨h0, hl, rfl, pixelBytes_triples p, by omega⟩
    · rw [decodePayload_setpixNoop p h0 (by omega)]
      exact ⟨h0, by omega, rfl, rfl⟩
  · by_cases hF : h.command = 0xFF
    · by_cases hl : 3 < h.length.toNat
      · obtain ⟨p0, p1, p2, p3, hbytes⟩ := exists_subHeader_bytes (hp ▸ hl)
        generalize p.drop 4 = body at hbytes
        subst hbytes
        rw [decodePayload_subHeader _ _ _ _ _ hF hl, decodeSubHeader]
        have hw {s c : U16} (hs : u16be p0 p1 = s) (hc : u16be p2 p3 = c) :
            p0 :: p1 :: p2 :: p3 :: body = u16Bytes s ++ u16Bytes c ++ body := by
          rw [← bytes_of_u16be_eq hs, ← bytes_of_u16be_eq hc]
          rfl
        by_cases hs : u16be p0 p1 = 1
        · rw [if_pos hs]
          by_cases h1 : u16be p2 p3 = 1
          · rw [if_pos h1]
            exact ⟨hF, rfl, hw hs h1⟩
          · rw [if_neg h1]
            by_cases h2 : u16be p2 p3 = 2
            · rw [if_pos h2]
              exact ⟨hF, rfl, hw hs h2⟩
            · rw [if_neg h2]
              exact ⟨hF, rfl, h1, h2, hw hs rfl⟩
        · rw [if_neg hs]
          exact ⟨hF, rfl, hs, hw rfl rfl⟩
      · rw [decodePayload_sysexShort p hF (by omega)]
        exact ⟨hF, by omega, rfl, rfl⟩
    · rw [decodePayload_unknown p h0 hF]
      exact ⟨h0, hF, rfl, rfl, rfl⟩

/-- What the decoder gives for a whole payload is well formed and is written as the bytes it was read
from: each row of the decode map says so (R88, R93). -/
theorem decodePayload_wf_encode {h : HeaderBytes} {p : List Byte} (hp : p.length = h.length.toNat) :
    (decodePayload h p).wf = true ∧
      encode (decodePayload h p) = [h.b0, h.b1, h.b2, h.b3] ++ p := by
  have hrow := decodeMapSelectsOneForm h p hp
  have hlt := h.length.isLt
  rw [← frameBytes_of_header hp]
  generalize decodePayload h p = i at hrow ⊢
  cases i with
  | setpix ch px tr =>
    obtain ⟨hc, hl, rfl, rfl, htr⟩ := hrow
    have hlen := (triples_length (px.flatMap pixelBytes ++ tr)).1
    rw [triples_pixelBytes px (by omega)] at hlen
    simp only at hlen
    refine ⟨?_, by rw [hc]; rfl⟩
    simp only [Instr.wf, Bool.and_eq_true, decide_eq_true_eq]
    omega
  | setpixNoop ch q =>
    obtain ⟨hc, hl, rfl, rfl⟩ := hrow
    exact ⟨decide_eq_true (hp ▸ hl), by rw [hc]; rfl⟩
  | sysexShort ch q =>
    obtain ⟨hc, hl, rfl, rfl⟩ := hrow
    exact ⟨decide_eq_true (hp ▸ hl), by rw [hc]; rfl⟩
  | sysexCc ch body =>
    obtain ⟨hc, rfl, rfl⟩ := hrow
    refine ⟨decide_eq_true ?_, by rw [hc]; rfl⟩
    simp at hp
    omega
  | sysexFwflags ch body =>
    obtain ⟨hc, rfl, rfl⟩ := hrow
    refine ⟨decide_eq_true ?_, by rw [hc]; rfl⟩
    simp at hp
    omega
  | sysexExtUnrec ch c body =>
    obtain ⟨hc, rfl, h1, h2, rfl⟩ := hrow
    refine ⟨?_, by rw [hc]; rfl⟩
    simp [u16Bytes] at hp
    simp only [Instr.wf, Bool.and_eq_true, decide_eq_true_eq]
    exact ⟨⟨h1, h2⟩, by omega⟩
  | sysexDevUnrec ch s c body =>
    obtain ⟨hc, rfl, hs, rfl⟩ := hrow
    refine ⟨?_, by rw [hc]; rfl⟩
    simp [u16Bytes] at hp
    simp only [Instr.wf, Bool.and_eq_true, decide_eq_true_eq]
    exact ⟨hs, by omega⟩
  | unknown ch raw q =>
    obtain ⟨h0, hF, rfl, rfl, rfl⟩ := hrow
    refine ⟨?_, rfl⟩
    simp only [Instr.wf, Bool.and_eq_true, decide_eq_true_eq]
    exact ⟨⟨h0, hF⟩, by omega⟩
  | ctrlStart | ctrlStop | ctrlStandbyOn | ctrlStandbyOff | ctrlIllegal => exact hrow.elim

/-- What the stream decoder accepts is a header, the payload it declares, and the rest (R80, R90). -/
theorem decodeFrame_eq_ok {bytes rest : List Byte} {i : Instr} (h : decodeFrame bytes = .ok (i, rest)) :
    ∃ (hd : HeaderBytes) (p : List Byte), p.length = hd.length.toNat ∧ i = decodePayload hd p ∧
      bytes = [hd.b0, hd.b1, hd.b2, hd.b3] ++ p ++ rest := by
  unfold decodeFrame at h
  split at h
  · rename_i b0 b1 b2 b3 tail
    simp only at h
    split at h
    · cases h
    · rename_i hl
      cases h
      exact ⟨⟨b0, b1, b2, b3⟩, _, by rw [List.length_take]; omega, rfl, by simp⟩
  · cases h

/-- Settles O2: the accepted bytes are a header, its payload and the rest; the decoded instruction is
written as the first two. -/
theorem encodeOfDecodedFrameIsTheBytes : Obligations.EncodeOfDecodedFrameIsTheBytes := by
  intro bytes rest i h
  obtain ⟨hd, p, hp, rfl, rfl⟩ := decodeFrame_eq_ok h
  obtain ⟨hw, he⟩ := decodePayload_wf_encode hp
  exact ⟨decodePayload_port hd p, hw, by rw [he]⟩

/-- A code other than the four of R91 is an illegal one. -/
theorem decodeCtrl_illegal {code : Byte} (h1 : code ≠ 0x01) (h2 : code ≠ 0x02) (h3 : code ≠ 0x03)
    (h4 : code ≠ 0x04) : decodeCtrl code = .ctrlIllegal code := by
  rw [decodeCtrl, if_neg h1, if_neg h2, if_neg h3, if_neg h4]

/-- Settles O3: the four legal codes, and every other code for itself. -/
theorem controlCodesRoundTrip : Obligations.ControlCodesRoundTrip := by
  refine ⟨fun code => ⟨decodeCtrl_port code, ?_⟩, fun i hi hw => ?_⟩
  · by_cases h1 : code = 0x01
    · subst h1; exact ⟨rfl, rfl⟩
    by_cases h2 : code = 0x02
    · subst h2; exact ⟨rfl, rfl⟩
    by_cases h3 : code = 0x03
    · subst h3; exact ⟨rfl, rfl⟩
    by_cases h4 : code = 0x04
    · subst h4; exact ⟨rfl, rfl⟩
    rw [decodeCtrl_illegal h1 h2 h3 h4]
    refine ⟨?_, rfl⟩
    simp only [Instr.wf, Bool.and_eq_true, decide_eq_true_eq]
    exact ⟨⟨⟨h1, h2⟩, h3⟩, h4⟩
  · cases i with
    | ctrlStart => exact ⟨0x01, rfl, rfl⟩
    | ctrlStop => exact ⟨0x02, rfl, rfl⟩
    | ctrlStandbyOn => exact ⟨0x03, rfl, rfl⟩
    | ctrlStandbyOff => exact ⟨0x04, rfl, rfl⟩
    | ctrlIllegal code =>
      simp only [Instr.wf, Bool.and_eq_true, decide_eq_true_eq] at hw
      obtain ⟨⟨⟨h1, h2⟩, h3⟩, h4⟩ := hw
      exact ⟨code, rfl, decodeCtrl_illegal h1 h2 h3 h4⟩
    | setpix | setpixNoop | sysexShort | sysexCc | sysexFwflags | sysexExtUnrec | sysexDevUnrec
    | unknown => cases hi

/-- Settles O4: the words are closed terms, and the decoder computes each of them. -/
theorem specWordsDecode : Obligations.SpecWordsDecode := by
  unfold Obligations.SpecWordsDecode
  decide

end Sys2Proof
end

section
/-! The LUT formula of 41_color_corrector.md R140 against the real numbers, its consequences (R141), and
the checks of LUT_COMPUTE in their order (R142). -/

namespace Sys2Proof.Machine

open Sys2Proof

/-- A value with a clear sign bit denotes its fraction. -/
theorem realOf_eq_div {v : B64} (h : f64Sign v = false) : realOf v = (f64Num v : ℝ) / f64Den v := by
  simp [realOf_eq, h]

/-- A value whose sign bit is set denotes no positive real. -/
theorem realOf_nonpos_of_sign {v : B64} (h : f64Sign v = true) : realOf v ≤ 0 := by
  have : (0 : ℝ) ≤ (f64Num v : ℝ) / f64Den v := by positivity
  simpa [realOf_eq, h] using this

/-- The bits' check is the sign of the real number, both zeros included (R142, N22). -/
theorem f64IsNonPos_iff {v : B64} : f64IsNonPos v = true ↔ realOf v ≤ 0 := by
  cases hs : f64Sign v with
  | true => simp [f64IsNonPos, hs, realOf_nonpos_of_sign hs]
  | false =>
    have hden : (0 : ℝ) < f64Den v := by exact_mod_cast f64Den_pos v
    rw [realOf_eq_div hs, div_le_iff₀ hden, zero_mul, f64IsNonPos, hs, Bool.false_or,
      decide_eq_true_eq, ← f64Num_eq_zero]
    exact_mod_cast Nat.le_zero.symm

/-- A legal gamma is a positive fraction. -/
theorem gammaLegal.sign {g : B64} (hg : gammaLegal g) : f64Sign g = false := by
  have := hg.2
  rw [f64IsNonPos, Bool.or_eq_false_iff] at this
  exact this.1

theorem gammaLegal.pos {g : B64} (hg : gammaLegal g) : 0 < realOf g := by
  refine lt_of_not_ge fun h => ?_
  have := f64IsNonPos_iff.mpr h
  rw [hg.2] at this
  cases this

/-- A power times a whitepoint that is not positive is clamped to 0 (R141). -/
theorem realLutEntry_of_nonpos {tie : RoundTie} {i : ℕ} {g w : ℝ} (h : (i : ℝ) ^ g * w ≤ 0) :
    realLutEntry tie i g w = 0 := by
  have := roundT_nonpos tie h
  unfold realLutEntry
  omega

/-- The table entry is the real formula (R140): a negative whitepoint gives 0 in both, and otherwise the
thresholds counted are those the real value reaches (log 17). -/
theorem lutEntry_toNat (tie : RoundTie) (i : Byte) {g : B64} (w : B64) (hg : gammaLegal g) :
    ((lutEntry tie i g w).toNat : ℤ) = realLutEntry tie i.toNat (realOf g) (realOf w) := by
  cases hs : f64Sign w with
  | true =>
    have hp : (0 : ℝ) ≤ (i.toNat : ℝ) ^ realOf g := Real.rpow_nonneg (Nat.cast_nonneg _) _
    rw [realLutEntry_of_nonpos (mul_nonpos_of_nonneg_of_nonpos hp (realOf_nonpos_of_sign hs))]
    simp [lutEntry, hs]
  | false =>
    have hcount := countP_thresholds (k := 255) fun n => roundsAbove_iff tie i.toNat (f64Num g) (f64Den g)
      (f64Num w) (f64Den w) n (f64Den_pos g) (f64Den_pos w)
    rw [← realOf_eq_div hg.sign, ← realOf_eq_div hs] at hcount
    rw [lutEntry, hs, if_neg Bool.false_ne_true, BitVec.toNat_ofNat, realLutEntry, Nat.mod_eq_of_lt]
    · exact hcount
    · have := List.countP_le_length (l := List.range 255)
        (p := fun n => roundsAbove tie i.toNat (f64Num g) (f64Den g) (f64Num w) (f64Den w) n)
      rw [List.length_range] at this
      omega

theorem realOf_b64One : realOf b64One = 1 := by
  have hs : f64Sign b64One = false := by decide
  have hm : f64Mant b64One = 2 ^ 52 := by decide +kernel
  have he : f64Exp b64One = 1023 := by decide +kernel
  rw [realOf, hs, hm, he]
  norm_num [zpow_neg]

theorem roundT_natCast (tie : RoundTie) (n : ℕ) : roundT tie (n : ℝ) = n := by
  simp [roundT]

/-- The formula of gamma 1.0 and whitepoint 1.0 is the identity on bytes (R141 (c)). -/
theorem realLutEntry_one (tie : RoundTie) (i : Byte) :
    realLutEntry tie i.toNat (realOf b64One) (realOf b64One) = i.toNat := by
  have := i.isLt
  rw [realOf_b64One, realLutEntry, Real.rpow_one, mul_one, roundT_natCast]
  omega

theorem byte_eq_of_toNat {a b : Byte} (h : (a.toNat : ℤ) = b.toNat) : a = b :=
  BitVec.eq_of_toNat_eq (by exact_mod_cast h)

theorem gammaLegal_b64One : gammaLegal b64One := by
  constructor <;> decide +kernel

theorem lutEntry_one (tie : RoundTie) (i : Byte) : lutEntry tie i b64One b64One = i :=
  byte_eq_of_toNat ((lutEntry_toNat tie i b64One gammaLegal_b64One).trans (realLutEntry_one tie i))

theorem lutRow_one (tie : RoundTie) : lutRow tie b64One b64One = identityRow :=
  congrArg Vector.ofFn (funext fun _ => lutEntry_one tie _)

/-- The reset table is the table of the reset parameters (R32). -/
theorem lutTable_reset (tie : RoundTie) :
    lutTable tie paramsReset = ⟨identityRow, identityRow, identityRow⟩ := by
  simp only [lutTable, paramsReset, lutRow_one]

/-- The checks of R142, said of finiteness as R31 says them. -/
theorem paramError_eq (p : CcParams) : paramError p =
    if f64IsFinite p.gamma = false ∨ f64IsNonPos p.gamma = true then
      some (.invalidGamma, .b64 p.gamma)
    else if f64IsFinite p.wp0 = false then some (.invalidWhitepoint, .num 0)
    else if f64IsFinite p.wp1 = false then some (.invalidWhitepoint, .num 1)
    else if f64IsFinite p.wp2 = false then some (.invalidWhitepoint, .num 2)
    else none := by
  simp only [paramError, f64IsFinite_eq, Bool.or_eq_true, Bool.not_eq_false']

theorem not_gammaLegal_iff {g : B64} :
    ¬ gammaLegal g ↔ f64IsFinite g = false ∨ f64IsNonPos g = true := by
  simp only [gammaLegal, not_and_or, Bool.not_eq_true, Bool.not_eq_false]

theorem paramError_gamma {p : CcParams} (h : ¬ gammaLegal p.gamma) :
    paramError p = some (.invalidGamma, .b64 p.gamma) := by
  rw [paramError_eq, if_pos (not_gammaLegal_iff.mp h)]

/-- The first whitepoint component that is not finite is the one reported (R245). -/
theorem paramError_whitepoint {p : CcParams} {k : Fin 3} (hg : gammaLegal p.gamma)
    (hk : f64IsFinite (whitepoint p k) = false)
    (hlt : ∀ k' < k, f64IsFinite (whitepoint p k') = true) :
    paramError p = some (.invalidWhitepoint, .num k.val) := by
  rw [paramError_eq, if_neg (fun h => not_gammaLegal_iff.mpr h hg)]
  fin_cases k
  · have h0 : f64IsFinite p.wp0 = false := hk
    rw [if_pos h0]
  · have h0 : f64IsFinite p.wp0 = true := hlt 0 (by decide)
    have h1 : f64IsFinite p.wp1 = false := hk
    rw [if_neg (by simp [h0]), if_pos h1]
  · have h0 : f64IsFinite p.wp0 = true := hlt 0 (by decide)
    have h1 : f64IsFinite p.wp1 = true := hlt 1 (by decide)
    have h2 : f64IsFinite p.wp2 = false := hk
    rw [if_neg (by simp [h0]), if_neg (by simp [h1]), if_pos h2]

end Sys2Proof.Machine

namespace Sys2Proof

open Machine

/-- Settles O40: the clamped count of thresholds is the clamped rounding of the real value. -/
theorem lutEntryIsTheRealFormula : Obligations.LutEntryIsTheRealFormula :=
  fun tie i _ w hg _ => lutEntry_toNat tie i w hg

/-- Settles O41: the sign bit decides the sign of the real, except for a zero significand. -/
theorem gammaCheckIsTheRealSign : Obligations.GammaCheckIsTheRealSign :=
  fun _ _ => f64IsNonPos_iff

/-- Settles O42: LUT_COMPUTE emits the event of its first failing check, or has none. -/
theorem lutComputeChecksInOrder : Obligations.LutComputeChecksInOrder := by
  intro i p s
  exact ⟨fun hg => lutCompute_fail (paramError_gamma hg) i s,
    fun k hg hk hlt => lutCompute_fail (paramError_whitepoint hg hk hlt) i s,
    fun hg hw => lutCompute_ok (paramError_none_iff.mpr ⟨hg, hw⟩) i s⟩

/-- Settles O45: each part is the real formula at its argument: the power of 0 is 0, the power and the
factor 1 are the identity, and a factor that is not positive gives no positive value. -/
theorem lutEntryConsequences : Obligations.LutEntryConsequences := by
  have zero {tie : RoundTie} {i : Byte} {g w : B64} (hg : gammaLegal g)
      (h : (i.toNat : ℝ) ^ realOf g * realOf w ≤ 0) : lutEntry tie i g w = 0 :=
    byte_eq_of_toNat ((lutEntry_toNat tie i w hg).trans (realLutEntry_of_nonpos h))
  refine ⟨fun tie g w hg _ => zero hg ?_, lutEntry_one, lutTable_reset, fun tie i g w hg _ hw => zero hg ?_⟩
  · have h0 : ((0 : Byte).toNat : ℝ) ^ realOf g = 0 := by
      simpa using Real.zero_rpow hg.pos.ne'
    rw [h0, zero_mul]
  · exact mul_nonpos_of_nonneg_of_nonpos (Real.rpow_nonneg (Nat.cast_nonneg _) _)
      (f64IsNonPos_iff.mp hw)

end Sys2Proof
end

section
/-! The choice of the next move (60_exceptions.md R249) and what a step takes from it: a decoded
instruction (42_framer_control.md R174, R211) or a control operation (R191). -/

namespace Sys2Proof.Machine

open Sys2Proof

theorem step_first {s : State} {pre post : List Move} {m : Move} (hs : s.sched = pre ++ m :: post)
    (hpre : ∀ m' ∈ pre, enabled s m' = false) (hm : enabled s m = true) :
    step s = act m { s with sched := pre ++ post } := by
  simp only [step, hs, takeFirst_append hpre hm]

theorem step_idle {s : State} (h : ∀ m ∈ s.sched, enabled s m = false) : step s = .next s := by
  simp only [step, takeFirst_none h]

/-- A single offered move that is not enabled is held (R249). -/
theorem step_held {s : State} {m : Move} (hs : s.sched = [m]) (hm : enabled s m = false) :
    step s = .next s :=
  step_idle (by simp [hs, hm])

/-- When a connection may take its dispatch step (R210, R211, R219). -/
theorem enabled_dispatch_iff {s : State} {i : Nat} : enabled s (.dispatch i) = true ↔
    ∃ c ins, s.conns[i]? = some c ∧ c.fsm = .disp ∧ c.cmd = some ins ∧
      (s.lock = .free ∨ s.lock = .standby ∧ isColourCorrection ins = true) := by
  simp only [enabled, dispatchEnabled]
  cases s.conns[i]? with
  | none => simp
  | some c => cases hc : c.cmd <;> simp [hc]

/-- A dispatch offered first runs the instruction of the latch (R211, R219). -/
theorem step_dispatch {s : State} {rest : List Move} {i : Nat} {c : Conn} {ins : Instr}
    (hs : s.sched = .dispatch i :: rest) (hc : s.conns[i]? = some c) (hf : c.fsm = .disp)
    (hi : c.cmd = some ins) (hl : s.lock = .free ∨ s.lock = .standby ∧ isColourCorrection ins = true) :
    step s = exec ins { s with sched := rest, cur := i } := by
  rw [step_head hs (enabled_dispatch_iff.mpr ⟨c, ins, hc, hf, hi, hl⟩)]
  simp only [act, serve, hc, hi]

theorem step_ctrl {s : State} {rest : List Move} {code : Byte} {b : Bool}
    (hs : s.sched = .ctrl code b :: rest) (hr : s.stbyReq = false) :
    step s = exec (decodeCtrl code) { s with sched := rest, bindOk := b } :=
  step_head hs (by simp [enabled, hr])

end Sys2Proof.Machine

namespace Sys2Proof

open Machine

/-- Settles O9: the choice finds the first enabled move, or none. -/
theorem stepTakesFirstEnabledMove : Obligations.StepTakesFirstEnabledMove :=
  ⟨fun _ _ _ _ => step_first, fun _ => step_idle⟩

/-- Settles O10: the bytes decode to the instruction the latch holds. -/
theorem stepRunsDecodedInstruction : Obligations.StepRunsDecodedInstruction := by
  refine ⟨fun s rest j c p i hs hc hf _ hcmd hd hl => ?_, fun s rest code b => step_ctrl⟩
  rw [decodeFrame_exact hd] at hcmd
  exact step_dispatch hs hc hf hcmd hl

end Sys2Proof
end

section
/-! The connection framer of 42_framer_control.md: opening, payload bytes, end-of-stream and timeout
(R170 to R179), the independence of the connections (R180), and the assembly of a whole frame. -/

namespace Sys2Proof.Machine

open Sys2Proof

theorem enabled_connOpen_iff {s : State} {i : Nat} : enabled s (.connOpen i) = true ↔
    s.run = .running ∧ ∃ c, s.conns[i]? = some c ∧ c.fsm = .closed := by
  simp [enabled, connIn_iff]

/-- The three stream events of a connection, enabled while it reads (R171, R173, R175 to R179). -/
inductive StreamMove (i : Nat) : Move → Prop
  | byte (b : Byte) : StreamMove i (.rxByte i b)
  | eof : StreamMove i (.rxEof i)
  | timeout : StreamMove i (.rxTimeout i)

theorem StreamMove.enabled_eq {s : State} {i : Nat} {m : Move} (hm : StreamMove i m) {c : Conn}
    (hc : s.conns[i]? = some c) : enabled s m = decide (c.fsm = .hdr ∨ c.fsm = .pay) := by
  cases hm <;> simp [enabled, connIn_of hc]

/-- Every offset a header can declare is one the buffer has (R25, R50). -/
theorem pcount_lt_payloadSize {c : Conn} (h : c.pcount + 1 ≤ c.len.toNat) :
    c.pcount < Config.payloadSize := by
  have := c.len.isLt
  simp only [Config.payloadSize]
  omega

/-- A payload byte goes to offset `pcount`; while more are declared the framer goes on reading (R173). -/
theorem rxPayloadByte_of_lt {c : Conn} (h : c.pcount + 1 < c.len.toNat) (b : Byte) :
    rxPayloadByte b c = .ok { c with pb := c.pb.write c.pcount b, pcount := c.pcount + 1 } := by
  have hlt := pcount_lt_payloadSize h.le
  simp only [rxPayloadByte, if_pos hlt, if_neg (Nat.ne_of_lt h)]

/-- The buffer starts with the given bytes. -/
def Memory.Holds (m : Memory) (bytes : List Byte) : Prop :=
  ∀ a, a < bytes.length → m.read a = bytes[a]?

theorem Memory.Holds.nil (m : Memory) : m.Holds [] := nofun

theorem Memory.Holds.write {m : Memory} {bytes : List Byte} (h : m.Holds bytes) (b : Byte) :
    Memory.Holds (m.write bytes.length b) (bytes ++ [b]) := by
  intro a ha
  by_cases hlast : a = bytes.length
  · subst hlast
    simp [Memory.read_write_same]
  · rw [List.length_append, List.length_singleton] at ha
    rw [Memory.read_write_other m b hlast, h a (by omega), List.getElem?_append_left (by omega)]

theorem Memory.Holds.readRange {m : Memory} {bytes : List Byte} (h : m.Holds bytes) :
    m.readRange 0 bytes.length = some bytes :=
  Memory.readRange_eq_some rfl fun k hk => by rw [Nat.zero_add]; exact h k hk

/-- The byte that completes the payload decodes the whole of it into the latch (R174). -/
theorem rxPayloadByte_last {c : Conn} {bytes : List Byte} (hm : c.pb.Holds bytes)
    (hp : c.pcount = bytes.length) (h : c.pcount + 1 = c.len.toNat) (b : Byte) :
    rxPayloadByte b c = .ok { c with
      pb := c.pb.write c.pcount b, pcount := c.pcount + 1, fsm := .disp
      cmd := some (decodePayload c.hb (bytes ++ [b])) } := by
  have hlt := pcount_lt_payloadSize h.le
  have hread : (c.pb.write c.pcount b).readRange 0 c.len.toNat = some (bytes ++ [b]) := by
    have := (hm.write b).readRange
    rwa [List.length_append, List.length_singleton, ← hp, h] at this
  simp only [rxPayloadByte, if_pos hlt, if_pos h, payloadComplete, Conn.payload, hread]

theorem rxByteConn_pay {c : Conn} (hf : c.fsm = .pay) (b : Byte) :
    rxByteConn b c = rxPayloadByte b c := by
  simp only [rxByteConn, hf]

/-- The record `c` becomes `c'` when the framer receives the bytes one by one. -/
def Receives : List Byte → Conn → Conn → Prop
  | [], c, c' => c' = c
  | b :: bytes, c, c' =>
    (c.fsm = .hdr ∨ c.fsm = .pay) ∧ ∃ d, rxByteConn b c = .ok d ∧ Receives bytes d c'

theorem Receives.append {xs ys : List Byte} {c d e : Conn} (h : Receives xs c d)
    (h' : Receives ys d e) : Receives (xs ++ ys) c e := by
  induction xs generalizing c with
  | nil =>
    obtain rfl : d = c := h
    exact h'
  | cons x xs ih =>
    obtain ⟨hf, c1, hx, hrest⟩ := h
    exact ⟨hf, c1, hx, ih hrest⟩

theorem putConn_self {s : State} {i : Nat} {c : Conn} (hc : s.conns[i]? = some c) :
    s.putConn i c = s := by
  obtain ⟨hi, rfl⟩ := List.getElem?_eq_some_iff.mp hc
  simp [State.putConn]

/-- Bytes offered one RX_BYTE a step are received in as many steps (R171, R173). -/
theorem run_receives {bytes : List Byte} {s : State} {rest : List Move} {j : Nat} {c c' : Conn}
    (hs : s.sched = bytes.map (Move.rxByte j) ++ rest) (hc : s.conns[j]? = some c)
    (h : Receives bytes c c') : Host.Core.run Sys2Proof.core bytes.length s =
      .next { s.putConn j c' with sched := rest } := by
  induction bytes generalizing s c with
  | nil =>
    obtain rfl : c' = c := h
    obtain rfl : s.sched = rest := hs
    rw [putConn_self hc]
    rfl
  | cons b bytes ih =>
    obtain ⟨hf, d, hd, hrest⟩ := h
    have hnext := step_rxByte (rest := bytes.map (Move.rxByte j) ++ rest) hs hc hf hd
    have hrun := ih (s := { s.putConn j d with sched := bytes.map (Move.rxByte j) ++ rest }) rfl
      (putConn_get hc d) hrest
    exact (run_succ hnext bytes.length).trans
      (hrun.trans (congrArg _ (putConn_putConn s j d c' _ rest)))

/-- The four bytes of a header are received into `hb` and complete it (R171, R172). -/
theorem receives_header {c c' : Conn} (h : HeaderBytes) (hf : c.fsm = .hdr) (h0 : c.hcount = 0)
    (hdone : headerComplete { c with hb := h, hcount := 4 } = .ok c') :
    Receives [h.b0, h.b1, h.b2, h.b3] c c' := by
  obtain ⟨fsm, hcount, hb, len, pb, pcount, cmd, closing⟩ := c
  obtain rfl : fsm = .hdr := hf
  obtain rfl : hcount = 0 := h0
  exact ⟨.inl rfl, _, rfl, .inl rfl, _, rfl, .inl rfl, _, rfl, .inl rfl, _, hdone, rfl⟩

/-- The rest of a payload is received into the buffer, and its last byte decodes the whole (R173, R174). -/
theorem receives_payload {todo : List Byte} (ht : todo ≠ []) {c : Conn} {done : List Byte}
    (hf : c.fsm = .pay) (hm : c.pb.Holds done) (hp : c.pcount = done.length)
    (hl : done.length + todo.length = c.len.toNat) :
    ∃ pb : Memory, pb.Holds (done ++ todo) ∧ Receives todo c { c with
      pb := pb, pcount := c.len.toNat, fsm := .disp
      cmd := some (decodePayload c.hb (done ++ todo)) } := by
  induction todo generalizing c done with
  | nil => exact absurd rfl ht
  | cons b todo ih =>
    rw [List.length_cons] at hl
    by_cases hlast : todo = []
    · subst hlast
      rw [List.length_nil] at hl
      refine ⟨c.pb.write c.pcount b, hp ▸ hm.write b, .inr hf, _, ?_, rfl⟩
      rw [rxByteConn_pay hf, rxPayloadByte_last hm hp (by omega), show c.pcount + 1 = c.len.toNat by omega]
    · have hpos := List.length_pos_iff.mpr hlast
      obtain ⟨pb, hpb, hrest⟩ := ih hlast
        (c := { c with pb := c.pb.write c.pcount b, pcount := c.pcount + 1 }) (done := done ++ [b])
        hf (hp ▸ hm.write b) (by simp [hp]) (by simp; omega)
      rw [List.append_assoc] at hpb hrest
      exact ⟨pb, hpb, .inr hf, _, (rxByteConn_pay hf b).trans (rxPayloadByte_of_lt (by omega) b), hrest⟩

/-- A whole frame is received from an empty header: its payload stands in the buffer and its decode in
the latch (R171 to R174). -/
theorem receives_frame {c : Conn} (h : HeaderBytes) {p : List Byte} (hf : c.fsm = .hdr)
    (h0 : c.hcount = 0) (hp : h.length.toNat = p.length) :
    ∃ pb : Memory, pb.Holds p ∧ Receives ([h.b0, h.b1, h.b2, h.b3] ++ p) c { c with
      hb := h, hcount := 4, len := h.length, pb := pb, pcount := h.length.toNat, fsm := .disp
      cmd := some (decodePayload h p) } := by
  by_cases hnil : p = []
  · subst hnil
    have hz : h.length = 0 := BitVec.eq_of_toNat_eq hp
    refine ⟨c.pb, .nil _, ?_⟩
    rw [List.append_nil, hp]
    exact receives_header h hf h0 (headerComplete_empty (c := { c with hb := h, hcount := 4 }) hz)
  · have hne : h.length ≠ 0 := fun hz => hnil (List.length_eq_zero_iff.mp (by rw [← hp, hz]; rfl))
    have hhead := receives_header h hf h0 (headerComplete_of_ne (c := { c with hb := h, hcount := 4 }) hne)
    obtain ⟨pb, hpb, hpay⟩ := receives_payload hnil
      (c := { c with hb := h, hcount := 4, len := h.length, pcount := 0, fsm := .pay })
      rfl (.nil _) rfl (by simp [hp])
    exact ⟨pb, hpb, hhead.append hpay⟩

/-- End-of-stream offered first to a reading connection reports its event and closes it (R176 to R178). -/
theorem step_rxEof {s : State} {rest : List Move} {i : Nat} {c : Conn} {e : EventRec}
    (hs : s.sched = .rxEof i :: rest) (hc : s.conns[i]? = some c) (hf : c.fsm = .hdr ∨ c.fsm = .pay)
    (he : eofEvent i c = some e) :
    step s = .next { s.putConn i c.shut with sched := rest, events := s.events ++ [e] } := by
  rw [step_head hs (by simp [StreamMove.eof.enabled_eq hc, hf])]
  simp only [act, rxEof, hc, he]
  rw [modifyConn_eq_putConn (c := c) (by simpa using hc)]
  rfl

theorem step_rxTimeout {s : State} {rest : List Move} {i : Nat} {c : Conn}
    (hs : s.sched = .rxTimeout i :: rest) (hc : s.conns[i]? = some c)
    (hf : c.fsm = .hdr ∨ c.fsm = .pay) :
    step s = .next { s.putConn i c.shut with
      sched := rest
      events := s.events ++ [connEvent .readTimeout i [.num c.hcount, .num c.pcount]] } := by
  rw [step_head hs (by simp [StreamMove.timeout.enabled_eq hc, hf])]
  simp only [act, rxTimeout, hc, if_pos hf]
  rw [modifyConn_eq_putConn (c := c) (by simpa using hc)]
  rfl

/-- What a framer move does is the same on every state with the same record in its slot (R180). -/
theorem act_framer_record {s t : State} {m : Move} {i : Nat} {b : Byte} {c : Conn}
    (hm : m = .connOpen i ∨ m = .rxByte i b ∨ m = .rxEof i ∨ m = .rxTimeout i)
    (hc : s.conns[i]? = some c) (h : act m s = .next t) :
    ∃ c' es, ∀ s' : State, s'.conns[i]? = some c →
      act m s' = .next { s'.putConn i c' with events := s'.events ++ es } := by
  have report (e : EventRec) {s' : State} (hc' : s'.conns[i]? = some c) :
      (s'.emit e).modifyConn i Conn.close = { s'.putConn i c.close with events := s'.events ++ [e] } := by
    rw [modifyConn_eq_putConn (c := c) (by simpa using hc')]
    rfl
  have idle {s' : State} (hc' : s'.conns[i]? = some c) :
      s' = { s'.putConn i c with events := s'.events ++ [] } := by
    rw [List.append_nil, putConn_self hc']
  rcases hm with rfl | rfl | rfl | rfl
  · refine ⟨c.opened, [], fun s' hc' => ?_⟩
    simp only [act, connOpen, modifyConn_eq_putConn hc', List.append_nil]
    rfl
  · simp only [act, rxByte, hc] at h
    cases hr : rxByteConn b c with
    | error f => simp [hr] at h
    | ok c' =>
      refine ⟨c', [], fun s' hc' => ?_⟩
      simp only [act, rxByte, hc', hr, modifyConn_eq_putConn hc', List.append_nil]
      rfl
  · cases he : eofEvent i c with
    | none =>
      exact ⟨c, [], fun s' hc' => by simp only [act, rxEof, hc', he]; exact congrArg _ (idle hc')⟩
    | some e =>
      exact ⟨c.close, [e], fun s' hc' => by simp only [act, rxEof, hc', he, report e hc']⟩
  · by_cases hf : c.fsm = .hdr ∨ c.fsm = .pay
    · exact ⟨c.close, [connEvent .readTimeout i [.num c.hcount, .num c.pcount]], fun s' hc' => by
        simp only [act, rxTimeout, hc', if_pos hf, report _ hc']⟩
    · exact ⟨c, [], fun s' hc' => by
        simp only [act, rxTimeout, hc', if_neg hf]; exact congrArg _ (idle hc')⟩

/-- A framer move of a slot that does not exist does nothing (log 22). -/
theorem act_framer_absent {s : State} {m : Move} {i : Nat} {b : Byte}
    (hm : m = .connOpen i ∨ m = .rxByte i b ∨ m = .rxEof i ∨ m = .rxTimeout i)
    (hc : s.conns[i]? = none) : act m s = .next s := by
  rcases hm with rfl | rfl | rfl | rfl
  · have hm : s.conns.modify i Conn.opened = s.conns := by
      refine List.ext_getElem? fun j => ?_
      by_cases hj : i = j
      · subst hj
        simp [hc]
      · simp [hj]
    simp only [act, connOpen, State.modifyConn, hm]
  · simp only [act, rxByte, hc]
  · simp only [act, rxEof, hc]
  · simp only [act, rxTimeout, hc]

end Sys2Proof.Machine

namespace Sys2Proof

open Machine

/-- Settles O11: the step is CONN_OPEN on the record, and its enabling is the two conditions. -/
theorem connOpenStartsAtEmptyHeader : Obligations.ConnOpenStartsAtEmptyHeader := by
  refine ⟨fun s rest i c hs hr hc hf => ?_, fun s i hr => ?_, fun s i c hc hf => ?_⟩
  · rw [step_head hs (enabled_connOpen_iff.mpr ⟨hr, c, hc, hf⟩)]
    simp only [act, connOpen]
    rw [modifyConn_eq_putConn (c := c) (by simpa using hc)]
    rfl
  · exact Bool.eq_false_iff.mpr fun h => hr (enabled_connOpen_iff.mp h).1
  · refine Bool.eq_false_iff.mpr fun h => hf ?_
    obtain ⟨-, d, hd, hclosed⟩ := enabled_connOpen_iff.mp h
    rwa [Option.some.inj (hc.symm.trans hd)]

/-- Settles O13: the step is the framer's store on the record, and for the last byte its decode. -/
theorem payloadByteReception : Obligations.PayloadByteReception := by
  intro s rest i b c hs hc hf _
  have received {c' : Conn} (h : rxPayloadByte b c = .ok c') :=
    step_rxByte hs hc (.inr hf) ((rxByteConn_pay hf b).trans h)
  refine ⟨c.pb.write c.pcount b, Memory.read_write_same _ _ _,
    fun a ha => Memory.read_write_other _ b ha, fun hl => received (rxPayloadByte_of_lt hl b),
    fun hl bytes hb hr => received (rxPayloadByte_last (fun a ha => hr a (hb ▸ ha)) hb.symm hl b)⟩

/-- Settles O14: the encoding is one frame, the framer receives it byte by byte, and a run of steps
delivers it. -/
theorem framerAssemblesEveryFrame : Obligations.FramerAssemblesEveryFrame := by
  intro s rest j c i hi hw hc hf h0 hs
  obtain ⟨ch, cmd, p, he, hp, hd⟩ := encode_frame hi hw
  have hlen := frameHeader_length ch cmd hp
  obtain ⟨pb, hpb, hrec⟩ := receives_frame (frameHeader ch cmd p) hf h0 hlen
  rw [he, frameBytes_eq] at hs ⊢
  refine ⟨_, run_receives hs hc hrec, rfl, congrArg some hd, rfl, rfl, rfl, ?_⟩
  simp only [Conn.payload, hlen, hpb.readRange]
  rfl

/-- Settles O15: a record at a frame boundary is closed as it is. -/
theorem endOfStreamAtBoundaryIsPeerClosed : Obligations.EndOfStreamAtBoundaryIsPeerClosed := by
  intro s rest i c hs hc hf h0 hp hcmd
  have hshut : c.shut = { c with fsm := .closed } := by
    simp only [Conn.shut, h0, hp, hcmd]
  have he : eofEvent i c = some (connEvent .peerClosed i []) := by
    simp only [eofEvent, hf, if_pos h0]
  rw [step_rxEof hs hc (.inl hf) he, hshut]
  rfl

/-- Settles O16: the framer's state gives the event. -/
theorem endOfStreamInsideFrameIsFramingError : Obligations.EndOfStreamInsideFrameIsFramingError := by
  intro s rest i c hs hc
  refine ⟨fun hf h1 => step_rxEof hs hc (.inl hf) ?_, fun hf => step_rxEof hs hc (.inr hf) ?_⟩
  · simp only [eofEvent, hf, if_neg (Nat.one_le_iff_ne_zero.mp h1)]
    rfl
  · simp only [eofEvent, hf]
    rfl

/-- Settles O17: the step of RX_TIMEOUT on a reading record. -/
theorem readTimeoutClosesConnection : Obligations.ReadTimeoutClosesConnection :=
  fun _ _ _ _ => step_rxTimeout

/-- Settles O18: the stream events are enabled in HDR and PAY only, and what is not enabled is held. -/
theorem framerReadsNothingInDispAndClosed : Obligations.FramerReadsNothingInDispAndClosed := by
  intro s i c b hc hf
  have held {m : Move} (hm : StreamMove i m) : enabled s m = false := by
    rw [hm.enabled_eq hc]
    rcases hf with hf | hf <;> simp [hf]
  refine ⟨held (.byte b), held .eof, held .timeout, ?_⟩
  rintro (hs | hs | hs)
  · exact step_held hs (held (.byte b))
  · exact step_held hs (held .eof)
  · exact step_held hs (held .timeout)

/-- Settles O19: a framer move writes one record and appends events, and the record it finds decides
both. -/
theorem framerStepsAreIndependent : Obligations.FramerStepsAreIndependent := by
  intro s t i b m hm h
  obtain ⟨f, es, ht⟩ := act_framer hm h
  refine ⟨fun j hj => by rw [ht]; exact modifyConn_other hj f,
    by rw [ht]; exact modifyConn_length s i f, by rw [ht], by rw [ht],
    by rw [ht], by rw [ht], by rw [ht], by rw [ht], by rw [ht], by rw [ht], by rw [ht],
    ⟨es, by rw [ht]⟩, fun s' hs' => ?_⟩
  cases hc : s.conns[i]? with
  | none =>
    have hc' := hs'.trans hc
    obtain rfl := Host.Outcome.next.inj (h.symm.trans (act_framer_absent hm hc))
    refine ⟨s', act_framer_absent hm hc', hs', fun es hes => ?_⟩
    rw [List.self_eq_append_right.mp hes, List.append_nil]
  | some c =>
    have hc' := hs'.trans hc
    obtain ⟨c', es', hall⟩ := act_framer_record hm hc h
    obtain rfl := Host.Outcome.next.inj (h.symm.trans (hall s hc))
    refine ⟨_, hall s' hc', (putConn_get hc' c').trans (putConn_get hc c').symm, fun es hes => ?_⟩
    rw [List.append_cancel_left hes]

end Sys2Proof
end

section
/-! The dispatch of each command (43_dispatcher.md R210 to R222): the exact next state, what a dispatch
leaves alone, the acknowledge, and the properties of the body parser (R214). -/

namespace Sys2Proof.Machine

open Sys2Proof

/-- A dispatch whose command presents an output stays open until it is acknowledged (R211, R221). -/
theorem dispatchStart_presented {s : State} {c : Conn} (h : Ready s c) {apply : Nat → State → State}
    (ht : (apply s.cur (s.setLock (.conn s.cur))).out ≠ .none) :
    dispatchStart apply s = .next (apply s.cur (s.setLock (.conn s.cur))) := by
  rw [dispatchStart_of_ready h, endIfNoOutput, if_neg ht]

/-- A dispatch that cannot take the lock waits (R210, log 18). -/
theorem dispatchStart_waiting {s : State} (h : s.connIn s.cur .disp = false ∨ s.lock ≠ .free)
    (apply : Nat → State → State) : dispatchStart apply s = .next s :=
  if_neg fun ⟨hd, hl⟩ => h.elim (fun hf => by rw [hd] at hf; cases hf) (fun hn => hn hl)

/-- A command that changes nothing is served with no event. -/
theorem served_of_same {s : State} {c : Conn} (h : Ready s c) {apply : Nat → State → State}
    (ha : apply s.cur (s.setLock (.conn s.cur)) = s.setLock (.conn s.cur)) :
    dispatchStart apply s = .next (s.servedWith c []) := by
  rw [dispatchStart_served h ha rfl h.noOutput]
  simp [State.servedWith, State.putConn, h.lockFree, State.setLock]

/-- In DISP, a colour correction that meets a free lock is a dispatch (R211). -/
theorem exec_sysexCc_ready {s : State} {c : Conn} (h : Ready s c) (ch : Byte) (body : List Byte) :
    exec (.sysexCc ch body) s = dispatchStart (applyColourCorrection body) s :=
  exec_sysexCc_dispatched s ch body (by rw [h.lockFree]; exact Lock.noConfusion)

theorem exec_sysexCc_unparsed {s : State} {c : Conn} (h : Ready s c) (ch : Byte) {body : List Byte}
    (hp : ccParse body = none) : exec (.sysexCc ch body) s =
      .next (s.servedWith c [connEvent .ccDecodeError s.cur []]) := by
  rw [exec_sysexCc_ready h]
  exact served_of_emit h (by simp only [applyColourCorrection, hp])

theorem exec_sysexCc_rejected {s : State} {c : Conn} (h : Ready s c) (ch : Byte) {body : List Byte}
    {p : CcParams} (hp : ccParse body = some p) {e : EventCode × InfoVal} (he : paramError p = some e) :
    exec (.sysexCc ch body) s = .next (s.servedWith c [connEvent e.1 s.cur [e.2]]) := by
  rw [exec_sysexCc_ready h]
  exact served_of_emit h (by simp only [applyColourCorrection, hp, lutCompute_fail he])

/-- A legal colour correction replaces parameters and table, and notifies an attached consumer (R214). -/
theorem exec_sysexCc_applied {s : State} {c : Conn} (h : Ready s c) (ch : Byte) {body : List Byte}
    {p : CcParams} (hp : ccParse body = some p) (he : paramError p = none) :
    exec (.sysexCc ch body) s = .next (if s.cfg.hasCcConsumer then
        { s with lock := .conn s.cur, params := p, lut := lutTable s.cfg.roundTie p, out := .cc p }
      else { s.servedWith c [] with params := p, lut := lutTable s.cfg.roundTie p }) := by
  have ha : applyColourCorrection body s.cur (s.setLock (.conn s.cur)) =
      if s.cfg.hasCcConsumer then
        { s with lock := .conn s.cur, params := p, lut := lutTable s.cfg.roundTie p, out := .cc p }
      else { s with lock := .conn s.cur, params := p, lut := lutTable s.cfg.roundTie p } := by
    simp only [applyColourCorrection, hp, lutCompute_ok he]
    rfl
  rw [exec_sysexCc_ready h]
  by_cases hc : s.cfg.hasCcConsumer = true
  · rw [if_pos hc] at ha ⊢
    rw [dispatchStart_presented h (by rw [ha]; exact Out.noConfusion), ha]
  · rw [if_neg hc] at ha ⊢
    rw [dispatchStart_served h ha rfl h.noOutput]
    simp [State.servedWith, State.putConn, h.lockFree]

/-- In standby a colour correction reports and returns its framer to a header (R219). -/
theorem exec_sysexCc_standby {s : State} {c : Conn} (hc : s.conns[s.cur]? = some c)
    (hf : c.fsm = .disp) (hl : s.lock = .standby) (ch : Byte) (body : List Byte) :
    exec (.sysexCc ch body) s = .next (s.servedWith c [connEvent
      (if (ccParse body).isSome then .ccSuppressedStandby else .ccDecodeError) s.cur []]) := by
  have served (e : EventRec) : (s.emit e).modifyConn s.cur Conn.nextHeader = s.servedWith c [e] := by
    rw [modifyConn_eq_putConn (c := c) (by simpa using hc)]
    rfl
  rw [exec_sysexCc_suppressed s ch body (by simp [connIn_of hc, hf]) hl, ccSuppress]
  cases ccParse body with
  | none => exact congrArg _ (served _)
  | some p => exact congrArg _ (served _)

theorem fwOfByte_getLsbD (b : Byte) {n : Nat} (h : n < 4) : (fwOfByte b).getLsbD n = b.getLsbD n := by
  simp [fwOfByte, h]

/-- Firmware flags with a body are assigned and served (R215). -/
theorem exec_sysexFwflags_assigned {s : State} {c : Conn} (h : Ready s c) (ch b : Byte)
    (more : List Byte) :
    exec (.sysexFwflags ch (b :: more)) s = .next { s.servedWith c [] with fw := fwOfByte b } := by
  rw [exec_sysexFwflags, dispatchStart_served h rfl rfl h.noOutput]
  simp [applyFwFlags, State.servedWith, State.putConn, State.setLock, h.lockFree]

/-- While its connection is not in DISP, every frame instruction waits. -/
theorem exec_wire_notInDisp {i : Instr} (hi : i.port = .wire) {s : State}
    (h : s.connIn s.cur .disp = false) : exec i s = .next s := by
  by_cases hc : isColourCorrection i = true
  · obtain ⟨ch, body, rfl⟩ := isColourCorrection_iff.mp hc
    simp only [exec, execSysexCc, h, Bool.false_eq_true, false_and, if_false]
    exact dispatchStart_waiting (.inl h) _
  · rw [exec_wire hi (.inl (Bool.eq_false_iff.mpr hc)), dispatchStart_waiting (.inl h)]

/-- What changing one record's framer fields leaves of every record's header and payload. -/
theorem modify_keeps_bytes {cs : List Conn} {i : Nat} {f : Conn → Conn}
    (hf : ∀ c, (f c).hb = c.hb ∧ (f c).len = c.len ∧ (f c).pb = c.pb) {j : Nat} {c c' : Conn}
    (hc : cs[j]? = some c) (hc' : (cs.modify i f)[j]? = some c') :
    c'.hb = c.hb ∧ c'.len = c.len ∧ ∀ a, c'.pb.read a = c.pb.read a := by
  rw [List.getElem?_modify, hc] at hc'
  obtain rfl := Option.some.inj hc'
  split
  · obtain ⟨h1, h2, h3⟩ := hf c
    exact ⟨h1, h2, fun a => by rw [h3]⟩
  · exact ⟨rfl, rfl, fun _ => rfl⟩

/-- An acknowledge offered first ends the dispatch that holds the lock (R221). -/
theorem step_consAck {s : State} {rest : List Move} {i : Nat} (hs : s.sched = .consAck :: rest)
    (hl : s.lock = .conn i) (ho : s.out ≠ .none) :
    step s = .next (dispatchEnd i { s with sched := rest, out := .none }) := by
  rw [step_head hs (decide_eq_true ho)]
  simp only [act, consAck, hl]
  rfl

/-- Pixels go out through the table in force, each component by the formula (R140, R145, R149). -/
theorem applyPixel_formula {s : State} (hs : BlockInv s) (p : Pixel) :
    ((applyPixel s.lut p).r.toNat : ℤ) =
      realLutEntry s.cfg.roundTie p.r.toNat (realOf s.params.gamma) (realOf s.params.wp0) ∧
    ((applyPixel s.lut p).g.toNat : ℤ) =
      realLutEntry s.cfg.roundTie p.g.toNat (realOf s.params.gamma) (realOf s.params.wp1) ∧
    ((applyPixel s.lut p).b.toNat : ℤ) =
      realLutEntry s.cfg.roundTie p.b.toNat (realOf s.params.gamma) (realOf s.params.wp2) := by
  have entry (k : Fin 3) (i : Byte) : ((s.lut.entry k i).toNat : ℤ) = realLutEntry s.cfg.roundTie
      i.toNat (realOf s.params.gamma) (realOf (whitepoint s.params k)) := by
    rw [hs.table, lutTable_entry]
    exact lutEntry_toNat _ _ _ hs.gamma
  exact ⟨entry 0 p.r, entry 1 p.g, entry 2 p.b⟩

/-- SETPIX with a consumer attached presents the mapped pixels and keeps the lock (R212, R221). -/
theorem exec_setpix_presented {s : State} {c : Conn} (h : Ready s c) (hc : s.cfg.hasPixConsumer = true)
    (ch : Byte) (px : List Pixel) (tr : List Byte) : exec (.setpix ch px tr) s =
      .next { s with lock := .conn s.cur, out := .pix (lutApply s.lut px) } := by
  have ha : applySetPixels px s.cur (s.setLock (.conn s.cur)) =
      { s with lock := .conn s.cur, out := .pix (lutApply s.lut px) } := by
    simp only [applySetPixels, setLock_cfg, hc, if_true]
    rfl
  rw [exec_setpix, dispatchStart_presented h (by rw [ha]; exact Out.noConfusion), ha]

/-- The example body is valid UTF-8 (R214 P2, P4). -/
theorem utf8Valid_example : utf8Valid ccExampleBody = true := by decide +kernel

theorem ccParse_example : ccParse ccExampleBody = some ccExampleParams := if_pos rfl

/-- A body other than the example that is invalid or too short for a record gives none (R214 P2, P3). -/
theorem ccParse_none {body : List Byte} (hx : body ≠ ccExampleBody)
    (h : utf8Valid body = false ∨ body.length < ccRecordMin) : ccParse body = none := by
  rw [ccParse, if_neg hx, if_neg]
  rcases h with h | h
  · simp [h]
  · simp [Nat.not_le.mpr h]

end Sys2Proof.Machine

namespace Sys2Proof

open Machine

/-- Settles O20: the pixels are presented under the lock, or the command changes nothing. -/
theorem setpixPresentsCorrectedPixels : Obligations.SetpixPresentsCorrectedPixels := by
  intro ch px tr s c h
  refine ⟨fun hc => exec_setpix_presented h hc ch px tr, fun hc => ?_⟩
  rw [exec_setpix]
  exact served_of_same h (by simp [applySetPixels, hc])

/-- Settles O21: the command changes nothing. -/
theorem noOpIsServedSilently : Obligations.NoOpIsServedSilently :=
  fun ch p s _ h => (exec_setpixNoop s ch p).trans (served_of_same h rfl)

/-- Settles O22: legal parameters fail no check. -/
theorem colourCorrectionReplacesParamsAndTable : Obligations.ColourCorrectionReplacesParamsAndTable := by
  intro ch body p s c h hp hg hw
  have happ := exec_sysexCc_applied h ch hp (paramError_none_iff.mpr ⟨hg, hw⟩)
  exact ⟨fun hc => by rw [happ, if_pos hc], fun hc => by rw [happ, if_neg (Bool.eq_false_iff.mp hc)]⟩

/-- Settles O23: the parser's answer and the first failing check choose the case. -/
theorem colourCorrectionReportsFirstError : Obligations.ColourCorrectionReportsFirstError := by
  intro ch body s c h
  cases hp : ccParse body with
  | none => exact exec_sysexCc_unparsed h ch hp
  | some p =>
    have rejected {e : EventCode × InfoVal} (he : paramError p = some e) :=
      exec_sysexCc_rejected h ch hp he
    have herr := paramError_eq p
    simp only
    by_cases hg : f64IsFinite p.gamma = false ∨ f64IsNonPos p.gamma = true
    · rw [if_pos hg] at herr ⊢
      exact rejected herr
    rw [if_neg hg] at herr ⊢
    by_cases h0 : f64IsFinite p.wp0 = false
    · rw [if_pos h0] at herr ⊢
      exact rejected herr
    rw [if_neg h0] at herr ⊢
    by_cases h1 : f64IsFinite p.wp1 = false
    · rw [if_pos h1] at herr ⊢
      exact rejected herr
    rw [if_neg h1] at herr ⊢
    by_cases h2 : f64IsFinite p.wp2 = false
    · rw [if_pos h2] at herr ⊢
      exact rejected herr
    rw [if_neg h2] at herr ⊢
    exact exec_sysexCc_applied h ch hp herr

/-- Settles O24: the suppression reports by the parser's answer. -/
theorem colourCorrectionInStandbyIsSuppressed : Obligations.ColourCorrectionInStandbyIsSuppressed := by
  intro ch body s c hc hf hl
  have hx := exec_sysexCc_standby hc hf hl ch body
  refine ⟨fun hp => ?_, fun hp => ?_⟩
  · rw [hx, hp]
    rfl
  · rw [hx, if_pos hp]
    rfl

/-- Settles O25: the flags are the low four bits of the first byte; an empty body only reports. -/
theorem firmwareFlagsAreAssignedFromFirstByte : Obligations.FirmwareFlagsAreAssignedFromFirstByte := by
  intro ch s c h
  exact ⟨fun b more => ⟨fwOfByte b, fun n => fwOfByte_getLsbD b, exec_sysexFwflags_assigned h ch b more⟩,
    served_of_emit h rfl⟩

/-- Settles O26: the command only reports. -/
theorem unknownCommandIsLoggedOnly : Obligations.UnknownCommandIsLoggedOnly :=
  fun ch raw p s _ h => (exec_unknown s ch p raw).trans (served_of_emit h rfl)

/-- Settles O27: the three commands only report. -/
theorem unrecognisedSysExIsLoggedOnly : Obligations.UnrecognisedSysExIsLoggedOnly :=
  fun ch sid cid body s _ h =>
    ⟨(exec_sysexExtUnrec s ch body cid).trans (served_of_emit h rfl),
      (exec_sysexDevUnrec s ch body sid cid).trans (served_of_emit h rfl),
      (exec_sysexShort s ch body).trans (served_of_emit h rfl)⟩

/-- Settles O28: a dispatch without the lock or outside DISP waits. -/
theorem commandsWaitForTheLock : Obligations.CommandsWaitForTheLock := by
  intro i s hi
  refine ⟨fun hl hcc => ?_, exec_wire_notInDisp hi⟩
  rw [exec_wire hi hcc]
  exact dispatchStart_waiting (.inr hl) _

/-- Settles O29: what a command leaves, and after it the end of its dispatch; or the suppression. -/
theorem frameInstructionsChangeOnlyTheirRegisters :
    Obligations.FrameInstructionsChangeOnlyTheirRegisters := by
  intro i s t hi h
  rcases exec_wire_cases hi h with hd | ⟨ch, body, e, rfl, -, -, rfl⟩
  · rcases dispatch_spec hd with rfl | ⟨-, -, u, f, es, l, rfl, rfl, hf⟩
    · refine ⟨rfl, rfl, rfl, rfl, rfl, rfl, fun _ _ => rfl, fun j c c' hc hc' => ?_, fun _ => ⟨rfl, rfl⟩,
        fun _ => rfl, [], (List.append_nil _).symm⟩
      obtain rfl := Option.some.inj (hc.symm.trans hc')
      exact ⟨rfl, rfl, fun _ => rfl⟩
    · have hu := commandOf_frame i s.cur (s.setLock (.conn s.cur))
      obtain ⟨es', hes'⟩ := hu.events
      refine ⟨hu.run, hu.stbyReq, hu.resps, hu.cfg, hu.sched, modifyConn_length s _ f,
        fun j hj => modifyConn_other hj f, fun j c c' => modify_keeps_bytes hf, fun hcc => ?_,
        fun hfw => ?_, es' ++ es, ?_⟩
      · refine (commandOf_params i s.cur (s.setLock (.conn s.cur))).resolve_right ?_
        rintro ⟨ch, body, p, rfl, -⟩
        cases hcc
      · refine (commandOf_fw i s.cur (s.setLock (.conn s.cur))).resolve_right ?_
        rintro ⟨ch, b, more, rfl, -⟩
        exact hfw ch (b :: more) rfl
      · simp only [hes', setLock_events, List.append_assoc]
  · exact ⟨rfl, rfl, rfl, rfl, rfl, modifyConn_length s _ _, fun j hj => modifyConn_other hj _,
      fun j c c' => modify_keeps_bytes (f := Conn.nextHeader) fun _ => ⟨rfl, rfl, rfl⟩, nofun, fun _ => rfl, [e], rfl⟩

/-- Settles O30: the acknowledge is the end of the dispatch, with STOP in between or not. -/
theorem acknowledgeEndsTheDispatch : Obligations.AcknowledgeEndsTheDispatch := by
  intro s rest i c hs hl ho hc
  have hstep := step_consAck hs hl ho
  have hc' : ({ s with sched := rest, out := .none } : State).conns[i]? = some c := hc
  exact ⟨fun hcl => by rw [hstep, dispatchEnd_open hc' hcl]; rfl,
    fun hcl => by rw [hstep, dispatchEnd_closing hc' hcl]; rfl⟩

/-- Settles O46: the pixels are presented through the table, which is that of the legal parameters. -/
theorem pixelsAreCorrectedByTheFormula : Obligations.PixelsAreCorrectedByTheFormula := by
  intro ch px tr s c hs h hc
  exact ⟨_, lutApply s.lut px, exec_setpix_presented h hc ch px tr, rfl, lutApply_length _ _,
    fun j p hj => ⟨_, lutApply_getElem? s.lut hj, applyPixel_formula hs p⟩⟩

/-- Settles O47: the parser's guards are the properties, and its three refusals meet one of them. -/
theorem bodyParserHasItsProperties : Obligations.BodyParserHasItsProperties := by
  refine ⟨fun body p h => ?_, ccParse_example, ccParse_none (by decide) (.inr (by decide)),
    ccParse_none (by decide) (.inr (by decide)), ccParse_none (by decide) (.inr (by decide))⟩
  by_cases hx : body = ccExampleBody
  · subst hx
    exact ⟨utf8Valid_example, by decide, .inl rfl⟩
  · rw [ccParse, if_neg hx] at h
    split at h
    · rename_i hg
      simp only [Bool.and_eq_true, decide_eq_true_eq] at hg
      obtain ⟨⟨hu, hl⟩, hr⟩ := hg
      exact ⟨hu, hl, .inr hr⟩
    · cases h

end Sys2Proof
end

section
/-! The control operations of 42_framer_control.md (R181 to R191): the effect of each, what they leave
alone, STOP record by record, and the life of a standby request. -/

namespace Sys2Proof.Machine

open Sys2Proof

/-- The effect a control operation has when it is enabled (R181 to R190); a frame instruction none. -/
def operationOf : Instr → State → State
  | .ctrlStart => startOp
  | .ctrlStop => stopOp
  | .ctrlStandbyOn => standbyOnOp
  | .ctrlStandbyOff => standbyOffOp
  | .ctrlIllegal code => fun s => (s.emit (portEvent .ctrlIllegal [.num code.toNat])).respond .illegal
  | .setpix .. => id
  | .setpixNoop .. => id
  | .sysexShort .. => id
  | .sysexCc .. => id
  | .sysexFwflags .. => id
  | .sysexExtUnrec .. => id
  | .sysexDevUnrec .. => id
  | .unknown .. => id

theorem exec_control {i : Instr} (hi : i.port = .control) (s : State) :
    exec i s = controlOp (operationOf i) s := by
  cases i with
  | ctrlStart | ctrlStop | ctrlStandbyOn | ctrlStandbyOff | ctrlIllegal => rfl
  | setpix | setpixNoop | sysexShort | sysexCc | sysexFwflags | sysexExtUnrec | sysexDevUnrec
  | unknown => cases hi

/-- A controller's move waits, or has the effect of the operation its code stands for (R91, R191). -/
theorem act_ctrl_cases {s t : State} {code : Byte} {b : Bool} (h : act (.ctrl code b) s = .next t) :
    t = { s with bindOk := b } ∨
    (s.stbyReq = false ∧ t = operationOf (decodeCtrl code) { s with bindOk := b }) :=
  controlOp_cases ((exec_control (decodeCtrl_port code) { s with bindOk := b }).symm.trans h)

theorem startOp_bound {s : State} (hr : s.run = .idle) (hb : s.bindOk = true) :
    startOp s = { s with run := .running, resps := s.resps ++ [.ok] } := by
  rw [startOp, if_neg (not_not.mpr hr), if_pos hb]
  rfl

theorem startOp_bindError {s : State} (hr : s.run = .idle) (hb : s.bindOk = false) :
    startOp s = { s with
      run := .failed, resps := s.resps ++ [.bindError], events := s.events ++ [portEvent .bindError []] } := by
  rw [startOp, if_neg (not_not.mpr hr), if_neg (Bool.eq_false_iff.mp hb)]
  rfl

theorem startOp_badState {s : State} (hr : s.run ≠ .idle) :
    startOp s = { s with
      resps := s.resps ++ [.badState], events := s.events ++ [portEvent .ctrlBadState [.num 0x01]] } := by
  rw [startOp, if_pos hr]
  rfl

/-- The run state a START in IDLE leaves, by the host's draw (R181, R182). -/
theorem startOp_run {s : State} (hr : s.run = .idle) :
    (startOp s).run = if s.bindOk then .running else .failed := by
  cases hb : s.bindOk with
  | true => rw [startOp_bound hr hb]; rfl
  | false => rw [startOp_bindError hr hb]; rfl

theorem standbyOnOp_engaged {s : State} (h : s.lock = .standby) :
    standbyOnOp s = { s with resps := s.resps ++ [.ok] } := by
  simp only [standbyOnOp, h, State.respond]

theorem standbyOnOp_free {s : State} (h : s.lock = .free) :
    standbyOnOp s = { s with lock := .standby, resps := s.resps ++ [.ok] } := by
  simp only [standbyOnOp, h]
  rfl

theorem standbyOnOp_waits {s : State} {j : Nat} (h : s.lock = .conn j) :
    standbyOnOp s = { s with stbyReq := true } := by
  simp only [standbyOnOp, h]

theorem standbyOffOp_of_ne {s : State} (h : s.lock ≠ .standby) :
    standbyOffOp s = { s with
      resps := s.resps ++ [.notEngaged], events := s.events ++ [portEvent .standbyNotEngaged []] } := by
  rw [standbyOffOp, if_neg h]
  rfl

/-- What an operation writes besides the two outputs: `run`, the records, the lock, the request. -/
def OperationWrites (s t : State) : Prop :=
  ∃ es rs, t = { s with
    run := t.run, conns := t.conns, lock := t.lock, stbyReq := t.stbyReq
    events := s.events ++ es, resps := s.resps ++ rs }

theorem operationOf_writes (i : Instr) (s : State) : OperationWrites s (operationOf i s) := by
  cases i with
  | ctrlStart =>
    by_cases hr : s.run = .idle
    · cases hb : s.bindOk
      · rw [operationOf, startOp_bindError hr hb]
        exact ⟨_, _, rfl⟩
      · rw [operationOf, startOp_bound hr hb]
        exact ⟨[], [.ok], by simp⟩
    · rw [operationOf, startOp_badState hr]
      exact ⟨_, _, rfl⟩
  | ctrlStop => exact ⟨_, [.ok], rfl⟩
  | ctrlStandbyOn =>
    cases hl : s.lock with
    | free =>
      rw [operationOf, standbyOnOp_free hl]
      exact ⟨[], [.ok], by simp⟩
    | standby =>
      rw [operationOf, standbyOnOp_engaged hl]
      exact ⟨[], [.ok], by simp⟩
    | conn j =>
      rw [operationOf, standbyOnOp_waits hl]
      exact ⟨[], [], by simp⟩
  | ctrlStandbyOff =>
    by_cases hl : s.lock = .standby
    · rw [operationOf, standbyOffOp_of_standby hl]
      exact ⟨[], [.ok], by simp [State.respond, State.setLock]⟩
    · rw [operationOf, standbyOffOp_of_ne hl]
      exact ⟨_, _, rfl⟩
  | ctrlIllegal code => exact ⟨[_], [.illegal], rfl⟩
  | setpix | setpixNoop | sysexShort | sysexCc | sysexFwflags | sysexExtUnrec | sysexDevUnrec
  | unknown => exact ⟨[], [], by simp [operationOf]⟩

/-- `run` is written by START and STOP alone (R21). -/
theorem operationOf_run {i : Instr} (h1 : i ≠ .ctrlStart) (h2 : i ≠ .ctrlStop) (s : State) :
    (operationOf i s).run = s.run := by
  cases i with
  | ctrlStart => exact absurd rfl h1
  | ctrlStop => exact absurd rfl h2
  | ctrlStandbyOn => simp only [operationOf, standbyOnOp]; split <;> rfl
  | ctrlStandbyOff => simp only [operationOf, standbyOffOp]; split <;> rfl
  | ctrlIllegal | setpix | setpixNoop | sysexShort | sysexCc | sysexFwflags | sysexExtUnrec
  | sysexDevUnrec | unknown => rfl

/-- The lock and the request are written by the standby operations alone (R184, R187). -/
theorem operationOf_lock {i : Instr} (h1 : i ≠ .ctrlStandbyOn) (h2 : i ≠ .ctrlStandbyOff) (s : State) :
    (operationOf i s).lock = s.lock ∧ (operationOf i s).stbyReq = s.stbyReq := by
  cases i with
  | ctrlStandbyOn => exact absurd rfl h1
  | ctrlStandbyOff => exact absurd rfl h2
  | ctrlStart =>
    simp only [operationOf, startOp]
    split
    · exact ⟨rfl, rfl⟩
    · split <;> exact ⟨rfl, rfl⟩
  | ctrlStop | ctrlIllegal | setpix | setpixNoop | sysexShort | sysexCc | sysexFwflags | sysexExtUnrec
  | sysexDevUnrec | unknown => exact ⟨rfl, rfl⟩

/-- The records are written by STOP alone (R183). -/
theorem operationOf_conns {i : Instr} (h : i ≠ .ctrlStop) (s : State) :
    (operationOf i s).conns = s.conns := by
  cases i with
  | ctrlStop => exact absurd rfl h
  | ctrlStart =>
    simp only [operationOf, startOp]
    split
    · rfl
    · split <;> rfl
  | ctrlStandbyOn => simp only [operationOf, standbyOnOp]; split <;> rfl
  | ctrlStandbyOff => simp only [operationOf, standbyOffOp]; split <;> rfl
  | ctrlIllegal | setpix | setpixNoop | sysexShort | sysexCc | sysexFwflags | sysexExtUnrec
  | sysexDevUnrec | unknown => rfl

/-- A request is raised only by STANDBY_ON that meets a dispatch, and cleared by no operation (R184). -/
theorem operationOf_stbyReq (i : Instr) (s : State) : (operationOf i s).stbyReq = s.stbyReq ∨
    (i = .ctrlStandbyOn ∧ (∃ j, s.lock = .conn j) ∧ (operationOf i s).stbyReq = true) := by
  by_cases h1 : i = .ctrlStandbyOn
  · subst h1
    cases hl : s.lock with
    | free => exact .inl (by rw [operationOf, standbyOnOp_free hl])
    | standby => exact .inl (by rw [operationOf, standbyOnOp_engaged hl])
    | conn j => exact .inr ⟨rfl, ⟨j, rfl⟩, congrArg State.stbyReq (standbyOnOp_waits hl)⟩
  · by_cases h2 : i = .ctrlStandbyOff
    · subst h2
      refine .inl ?_
      simp only [operationOf, standbyOffOp]
      split <;> rfl
    · exact .inl (operationOf_lock h1 h2 s).2

/-- STOP keeps the header and payload of every record. -/
theorem stopConn_keeps_bytes (b : Bool) (c : Conn) :
    (stopConn b c).hb = c.hb ∧ (stopConn b c).len = c.len ∧ (stopConn b c).pb = c.pb := by
  rw [stopConn_eq]
  split
  · exact ⟨rfl, rfl, rfl⟩
  · split <;> exact ⟨rfl, rfl, rfl⟩

theorem operationOf_length (i : Instr) (s : State) :
    (operationOf i s).conns.length = s.conns.length := by
  by_cases h : i = .ctrlStop
  · subst h
    exact stopConns_length s.lock s.conns 0
  · rw [operationOf_conns h]

theorem operationOf_keeps_bytes (i : Instr) {s : State} {j : Nat} {c c' : Conn}
    (hc : s.conns[j]? = some c) (hc' : (operationOf i s).conns[j]? = some c') :
    c'.hb = c.hb ∧ c'.len = c.len ∧ ∀ a, c'.pb.read a = c.pb.read a := by
  by_cases h : i = .ctrlStop
  · subst h
    have hj : some (stopConn (decide (s.lock = .conn (0 + j))) c) = some c' := by
      rw [← hc', operationOf, stopOp, respond_conns, stopConns_get, hc, Option.map_some]
    obtain rfl := Option.some.inj hj
    obtain ⟨h1, h2, h3⟩ := stopConn_keeps_bytes (decide (s.lock = .conn (0 + j))) c
    exact ⟨h1, h2, fun a => by rw [h3]⟩
  · rw [operationOf_conns h, hc] at hc'
    obtain rfl := Option.some.inj hc'
    exact ⟨rfl, rfl, fun _ => rfl⟩

theorem stopRun_eq (r : RunState) : stopRun r = if r = .failed then .failed else .terminated := by
  cases r <;> rfl

theorem stopRun_idem (r : RunState) : stopRun (stopRun r) = stopRun r := by
  cases r <;> rfl

/-- STOP leaves its own result as it is: the holder is marked already and no other record is open. -/
theorem stopConn_idem (b : Bool) (c : Conn) : stopConn b (stopConn b c) = stopConn b c := by
  cases b with
  | true => rfl
  | false => by_cases hf : c.fsm = .closed <;> simp [stopConn, stopCloses, hf]

theorem stopConns_idem (l : Lock) (cs : List Conn) (k : Nat) :
    stopConns l k (stopConns l k cs) = stopConns l k cs := by
  induction cs generalizing k with
  | nil => rfl
  | cons c cs ih => simp only [stopConns, stopConn_idem, ih]

theorem stopCloses_stopConn (b : Bool) (c : Conn) : stopCloses b (stopConn b c) = false := by
  cases b with
  | true => rfl
  | false => by_cases hf : c.fsm = .closed <;> simp [stopConn, stopCloses, hf]

theorem stopEvents_stopConns (l : Lock) (cs : List Conn) (k : Nat) :
    stopEvents l k (stopConns l k cs) = [] := by
  induction cs generalizing k with
  | nil => rfl
  | cons c cs ih => simp [stopConns, stopEvents, stopCloses_stopConn, ih]

theorem stopOp_idem (s : State) :
    stopOp (stopOp s) = { stopOp s with resps := (stopOp s).resps ++ [.ok] } := by
  simp [stopOp, State.respond, stopRun_idem, stopConns_idem, stopEvents_stopConns]

theorem enabled_grant_iff {s : State} :
    enabled s .grant = true ↔ s.stbyReq = true ∧ s.lock = .free := by
  simp [enabled]

end Sys2Proof.Machine

namespace Sys2Proof

open Machine

/-- Settles O31: the three branches of START. -/
theorem startBindsOnlyFromIdle : Obligations.StartBindsOnlyFromIdle := by
  intro s hs
  rw [exec_ctrlStart, controlOp_ready hs]
  exact ⟨fun hr hb => congrArg _ (startOp_bound hr hb), fun hr hb => congrArg _ (startOp_bindError hr hb),
    fun hr => congrArg _ (startOp_badState hr)⟩

/-- Settles O32: STOP record by record, its events in slot order. -/
theorem stopClosesAllButTheLockHolder : Obligations.StopClosesAllButTheLockHolder := by
  intro s hs
  refine ⟨stopOp s, (exec_ctrlStop s).trans (controlOp_ready hs _), stopRun_eq s.run, rfl,
    stopConns_length s.lock s.conns 0, fun i c hc => ?_, congrArg _ (stopEvents_eq s.lock s.conns 0),
    rfl, rfl, rfl, rfl, rfl, rfl, rfl, rfl⟩
  rw [stopOp, respond_conns, stopConns_get, hc, Option.map_some, stopConn_eq, Nat.zero_add]
  simp only [decide_eq_true_eq]

/-- Settles O33: the second STOP finds nothing to close. -/
theorem secondStopChangesNothing : Obligations.SecondStopChangesNothing := by
  intro s t hs h
  rw [exec_ctrlStop, controlOp_ready hs] at h
  obtain rfl := Host.Outcome.next.inj h
  rw [exec_ctrlStop, controlOp_ready (s := stopOp s) hs, stopOp_idem]

/-- Settles O34: the three cases of the lock. -/
theorem standbyOnEngagesOrWaits : Obligations.StandbyOnEngagesOrWaits := by
  intro s hs
  rw [exec_ctrlStandbyOn, controlOp_ready hs]
  exact ⟨fun hl => congrArg _ (standbyOnOp_engaged hl), fun hl => congrArg _ (standbyOnOp_free hl),
    fun j hl => congrArg _ (standbyOnOp_waits hl)⟩

/-- Settles O36: both operations only answer and report. -/
theorem refusedControlOperationsChangeNothing : Obligations.RefusedControlOperationsChangeNothing := by
  intro s hs
  refine ⟨fun hl => ?_, fun code => ?_⟩
  · rw [exec_ctrlStandbyOff, controlOp_ready hs, standbyOffOp_of_ne hl]
    rfl
  · rw [exec_ctrlIllegal, controlOp_ready hs]
    rfl

/-- Settles O37: every control operation waits for the outstanding response. -/
theorem controllerWaitsForItsResponse : Obligations.ControllerWaitsForItsResponse := by
  intro s hs
  refine ⟨fun code b => by simp [enabled, hs], fun i hi => ?_⟩
  rw [exec_control hi, controlOp_waiting hs]

/-- Settles O38: an operation waits, or writes what `operationOf` writes. -/
theorem controlOperationsChangeOnlyTheirRegisters :
    Obligations.ControlOperationsChangeOnlyTheirRegisters := by
  intro i s t hi h
  rw [exec_control hi] at h
  rcases controlOp_cases h with rfl | ⟨-, rfl⟩
  · refine ⟨rfl, rfl, rfl, rfl, rfl, rfl, rfl, fun j c c' hc hc' => ?_, fun _ _ => rfl,
      fun _ _ => ⟨rfl, rfl⟩, fun _ => rfl, ⟨[], (List.append_nil _).symm⟩, [], (List.append_nil _).symm⟩
    obtain rfl := Option.some.inj (hc.symm.trans hc')
    exact ⟨rfl, rfl, fun _ => rfl⟩
  · obtain ⟨es, rs, hw⟩ := operationOf_writes i s
    exact ⟨by rw [hw], by rw [hw], by rw [hw], by rw [hw], by rw [hw], by rw [hw],
      operationOf_length i s, fun j c c' => operationOf_keeps_bytes i,
      fun h1 h2 => operationOf_run h1 h2 s, fun h1 h2 => operationOf_lock h1 h2 s,
      fun hstop => operationOf_conns hstop s, ⟨es, by rw [hw]⟩, rs, by rw [hw]⟩

end Sys2Proof
end

section
/-! What every move keeps, whatever the state (10_state.md R20 to R36): the parameters of R271, the
outputs that only grow, the one writer of each shared register (R62), and the standby request. -/

namespace Sys2Proof.Machine

open Sys2Proof

/-- A move is one of the four of a framer, or one of the other agents'. -/
theorem move_cases (m : Move) :
    (∃ i b, m = .connOpen i ∨ m = .rxByte i b ∨ m = .rxEof i ∨ m = .rxTimeout i) ∨
    m = .standbyWaitExpired ∨ (∃ code b, m = .ctrl code b) ∨ m = .consAck ∨ m = .reset ∨
    (∃ i, m = .dispatch i) ∨ m = .grant := by
  cases m <;> simp

/-- What every move but reset keeps: the parameters of R271, and the two outputs up to what it appends. -/
structure MoveFrame (s t : State) : Prop where
  cfg : t.cfg = s.cfg
  slots : t.conns.length = s.conns.length
  events : ∃ es, t.events = s.events ++ es
  resps : ∃ rs, t.resps = s.resps ++ rs

theorem MoveFrame.refl (s : State) : MoveFrame s s :=
  ⟨rfl, rfl, ⟨[], (List.append_nil _).symm⟩, [], (List.append_nil _).symm⟩

theorem exec_frame {i : Instr} {s t : State} (h : exec i s = .next t) : MoveFrame s t := by
  rcases port_cases i with hi | hi
  · obtain ⟨-, -, hresps, hcfg, -, hlen, -, -, -, -, hev⟩ :=
      frameInstructionsChangeOnlyTheirRegisters i s t hi h
    exact ⟨hcfg, hlen, hev, [], by rw [hresps, List.append_nil]⟩
  · obtain ⟨-, -, -, -, hcfg, -, hlen, -, -, -, -, hev, hresps⟩ :=
      controlOperationsChangeOnlyTheirRegisters i s t hi h
    exact ⟨hcfg, hlen, hev, hresps⟩

theorem act_frame {s t : State} {m : Move} (h : act m s = .next t) (hm : m ≠ .reset) :
    MoveFrame s t := by
  rcases move_cases m with ⟨i, b, hf⟩ | rfl | ⟨code, b, rfl⟩ | rfl | rfl | ⟨i, rfl⟩ | rfl
  · obtain ⟨f, es, rfl⟩ := act_framer hf h
    exact ⟨rfl, modifyConn_length s i f, ⟨es, rfl⟩, [], (List.append_nil _).symm⟩
  · cases h
    exact ⟨rfl, rfl, ⟨_, rfl⟩, _, rfl⟩
  · obtain ⟨h1, h2, h3, h4⟩ := exec_frame (s := { s with bindOk := b }) h
    exact ⟨h1, h2, h3, h4⟩
  · obtain ⟨i, -, rfl⟩ := consAck_cases h
    obtain ⟨f, es, he, -⟩ := dispatchEnd_cases i (s.present .none)
    rw [he]
    exact ⟨rfl, modifyConn_length s i f, ⟨es, rfl⟩, [], (List.append_nil _).symm⟩
  · exact absurd rfl hm
  · rcases serve_cases h with rfl | ⟨c, ins, -, -, hx⟩
    · exact .refl t
    · obtain ⟨h1, h2, h3, h4⟩ := exec_frame hx
      exact ⟨h1, h2, h3, h4⟩
  · cases h
    exact ⟨rfl, rfl, ⟨[], (List.append_nil _).symm⟩, _, rfl⟩

/-- The parameters and the table are written only by a colour correction that meets a free lock; what it
writes is legal and belongs together (R31, R32). -/
theorem exec_params {i : Instr} {s t : State} (h : exec i s = .next t) :
    (t.params = s.params ∧ t.lut = s.lut) ∨
    ∃ ch body, i = .sysexCc ch body ∧ s.lock = .free ∧ ccParse body = some t.params ∧
      paramError t.params = none ∧ t.lut = lutTable s.cfg.roundTie t.params := by
  rcases port_cases i with hi | hi
  · rcases exec_wire_cases hi h with hd | ⟨_, _, e, -, -, -, rfl⟩
    · rcases dispatch_spec hd with rfl | ⟨-, hl, u, f, es, l, rfl, rfl, -⟩
      · exact .inl ⟨rfl, rfl⟩
      · rcases commandOf_params i s.cur (s.setLock (.conn s.cur)) with
          hp | ⟨ch, body, p, hcc, hparse, herr, rfl, hlut, -⟩
        · exact .inl hp
        · exact .inr ⟨ch, body, hcc, hl, hparse, herr, hlut⟩
    · exact .inl ⟨rfl, rfl⟩
  · obtain ⟨hp, hlut, -⟩ := controlOperationsChangeOnlyTheirRegisters i s t hi h
    exact .inl ⟨hp, hlut⟩

/-- The flags are written only by a firmware-flag sysEx with a body that meets a free lock (R33). -/
theorem exec_fw {i : Instr} {s t : State} (h : exec i s = .next t) : t.fw = s.fw ∨
    ∃ ch b more, i = .sysexFwflags ch (b :: more) ∧ s.lock = .free ∧ t.fw = fwOfByte b := by
  rcases port_cases i with hi | hi
  · rcases exec_wire_cases hi h with hd | ⟨_, _, e, -, -, -, rfl⟩
    · rcases dispatch_spec hd with rfl | ⟨-, hl, u, f, es, l, rfl, rfl, -⟩
      · exact .inl rfl
      · rcases commandOf_fw i s.cur (s.setLock (.conn s.cur)) with hf | ⟨ch, b, more, hfw, hf, -⟩
        · exact .inl hf
        · exact .inr ⟨ch, b, more, hfw, hl, hf⟩
    · exact .inl rfl
  · obtain ⟨-, -, hf, -⟩ := controlOperationsChangeOnlyTheirRegisters i s t hi h
    exact .inl hf

/-- A move is a reset, a dispatch, or leaves the shared registers (R62). -/
theorem act_shared {s t : State} {m : Move} (h : act m s = .next t) (hm : m ≠ .reset) :
    t.shared = s.shared ∨ ∃ i c ins, m = .dispatch i ∧ s.conns[i]? = some c ∧ c.cmd = some ins ∧
      exec ins { s with cur := i } = .next t := by
  rcases move_cases m with ⟨i, b, hf⟩ | rfl | ⟨code, b, rfl⟩ | rfl | rfl | ⟨i, rfl⟩ | rfl
  · obtain ⟨f, es, rfl⟩ := act_framer hf h
    exact .inl rfl
  · cases h
    exact .inl rfl
  · exact .inl (exec_control_frame (decodeCtrl_port code) h).shared
  · exact .inl (act_consAck_isolated h).1
  · exact absurd rfl hm
  · rcases serve_cases h with rfl | ⟨c, ins, hc, hi, hx⟩
    · exact .inl rfl
    · exact .inr ⟨i, c, ins, rfl, hc, hi, hx⟩
  · cases h
    exact .inl rfl

/-- The code of an operation is the one it is written as (R91). -/
theorem encode_of_decodeCtrl {code : Byte} {i : Instr} (h : decodeCtrl code = i) :
    encode i = [code] := by
  rw [← h]
  exact (controlCodesRoundTrip.1 code).2.2

/-- Who writes the standby request: STANDBY_ON raises it, the grant, the expiry and reset clear it (R30). -/
theorem act_stbyReq {s t : State} {m : Move} (h : act m s = .next t) (he : enabled s m = true) :
    t.stbyReq = s.stbyReq ∨
    (t.stbyReq = true ∧ (∃ b, m = .ctrl 0x03 b) ∧ ∃ j, s.lock = .conn j) ∨
    (t.stbyReq = false ∧ (m = .grant ∨ m = .standbyWaitExpired ∨ m = .reset)) := by
  rcases move_cases m with ⟨i, b, hf⟩ | rfl | ⟨code, b, rfl⟩ | rfl | rfl | ⟨i, rfl⟩ | rfl
  · obtain ⟨f, es, rfl⟩ := act_framer hf h
    exact .inl rfl
  · cases h
    exact .inr (.inr ⟨rfl, .inr (.inl rfl)⟩)
  · rcases act_ctrl_cases h with rfl | ⟨-, rfl⟩
    · exact .inl rfl
    · refine (operationOf_stbyReq (decodeCtrl code) { s with bindOk := b }).imp_right ?_
      rintro ⟨hon, hl, hr⟩
      obtain rfl : 0x03 = code := List.singleton_inj.mp (encode_of_decodeCtrl hon)
      exact .inl ⟨hr, ⟨b, rfl⟩, hl⟩
  · obtain ⟨i, -, rfl⟩ := consAck_cases h
    obtain ⟨f, es, hd, -⟩ := dispatchEnd_cases i (s.present .none)
    exact .inl (by rw [hd]; rfl)
  · cases h
    exact .inr (.inr ⟨rfl, .inr (.inr rfl)⟩)
  · obtain ⟨c, ins, hc, -, hi, hl⟩ := enabled_dispatch_iff.mp he
    have hx : exec ins { s with cur := i } = .next t := by simpa only [act, serve, hc, hi] using h
    rcases port_cases ins with hp | hp
    · obtain ⟨-, hr, -⟩ := frameInstructionsChangeOnlyTheirRegisters ins _ t hp hx
      exact .inl hr
    · rw [exec_control hp] at hx
      rcases controlOp_cases hx with rfl | ⟨-, rfl⟩
      · exact .inl rfl
      · refine (operationOf_stbyReq ins { s with cur := i }).imp_right ?_
        rintro ⟨-, ⟨j, hj⟩, -⟩
        have hj : s.lock = .conn j := hj
        simp [hj] at hl
  · cases h
    exact .inr (.inr ⟨rfl, .inl rfl⟩)

end Sys2Proof.Machine

namespace Sys2Proof

open Machine

/-- Settles O39: the two steps of a waiting request, its enabling, and the writers of `stbyReq`. -/
theorem standbyRequestIsGrantedOrExpires : Obligations.StandbyRequestIsGrantedOrExpires := by
  refine ⟨fun s rest hr => ⟨fun hs hl => ?_, fun hs => ?_, fun hl => ?_, fun hl => ?_⟩,
    fun s hr => ?_, fun s t m he h hne => (act_stbyReq h he).resolve_left hne⟩
  · rw [step_head hs (enabled_grant_iff.mpr ⟨hr, hl⟩)]
    rfl
  · rw [step_head hs hr]
    rfl
  · exact ⟨enabled_grant_iff.mpr ⟨hr, hl⟩, hr⟩
  · exact Bool.eq_false_iff.mpr fun h => hl (enabled_grant_iff.mp h).2
  · have hg : enabled s .grant = false :=
      Bool.eq_false_iff.mpr fun h => Bool.eq_false_iff.mp hr (enabled_grant_iff.mp h).1
    have hx : enabled s .standbyWaitExpired = false := hr
    exact ⟨hg, hx, fun hs => hs.elim (step_held · hg) (step_held · hx)⟩

/-- Settles O54: only a dispatch writes the shared registers, and its instruction is the one named. -/
theorem sharedRegistersHaveOneWriter : Obligations.SharedRegistersHaveOneWriter := by
  intro s t m h hm
  rcases act_shared h hm with hsame | ⟨i, c, ins, hdisp, hc, hi, hx⟩
  · obtain ⟨hp, hl, hf⟩ := shared_eq_iff.mp hsame
    exact ⟨fun hne => absurd ⟨hp, hl⟩ (not_and_or.mpr hne), fun hne => absurd hf hne⟩
  · refine ⟨fun hne => ?_, fun hne => ?_⟩
    · obtain ⟨ch, body, rfl, hl, hparse, -⟩ :=
        (exec_params hx).resolve_left (not_and_or.mpr hne)
      exact ⟨i, c, ch, body, hdisp, hc, hi, hl, hparse⟩
    · obtain ⟨ch, b, more, rfl, hl, hf⟩ := (exec_fw hx).resolve_left hne
      exact ⟨i, c, ch, b, more, hdisp, hc, hi, hl, hf⟩

/-- Settles O55: every move but reset appends; reset empties both outputs. -/
theorem outputsOnlyAppended : Obligations.OutputsOnlyAppended := by
  intro s t m h
  refine ⟨fun hm => ⟨(act_frame h hm).events, (act_frame h hm).resps⟩, fun hm => ?_⟩
  subst hm
  cases h
  exact ⟨rfl, rfl⟩

/-- Settles O56: every move keeps both, and reset rebuilds the records in their number. -/
theorem instanceParametersNeverChange : Obligations.InstanceParametersNeverChange := by
  intro s t h
  rcases step_cases h with rfl | ⟨m, pre, post, -, -, hact⟩
  · exact ⟨rfl, rfl⟩
  · by_cases hm : m = .reset
    · subst hm
      cases hact
      exact ⟨rfl, List.length_replicate⟩
    · obtain ⟨hcfg, hlen, -, -⟩ := act_frame hact hm
      exact ⟨hcfg, hlen⟩

/-- Settles O48: the step is reset itself. -/
theorem resetLeavesResetValues : Obligations.ResetLeavesResetValues := by
  intro s rest hs
  refine ⟨_, step_head hs rfl, rfl, rfl, rfl, rfl, rfl, rfl, rfl, fun k i => ?_,
    List.length_replicate, rfl, fun c hc => ?_⟩
  · fin_cases k <;> exact identityRow_get i
  · obtain rfl := List.eq_of_mem_replicate hc
    exact ⟨rfl, rfl, rfl, rfl, rfl⟩

/-- Settles O60: the outputs are the registers, and each operation's next state shows its value. -/
theorem statusOutputsFollowTheState : Obligations.StatusOutputsFollowTheState := by
  refine ⟨fun s => ⟨rfl, decide_eq_true_iff, rfl, rfl, rfl, rfl, rfl⟩, fun ch b more s c h => ?_,
    fun s hs => ⟨fun hl => ?_, fun hl => ?_, fun hr hb => ?_⟩, rfl, rfl, rfl⟩
  · exact ⟨_, exec_sysexFwflags_assigned h ch b more, fwOfByte_getLsbD b (by decide),
      fwOfByte_getLsbD b (by decide), fwOfByte_getLsbD b (by decide), fwOfByte_getLsbD b (by decide),
      fun n => fwOfByte_getLsbD b⟩
  · exact ⟨_, (standbyOnEngagesOrWaits s hs).2.1 hl, rfl⟩
  · exact ⟨_, (standbyOffFreesTheLock s hs hl).1, rfl⟩
  · exact ⟨_, (startBindsOnlyFromIdle s hs).1 hr hb, rfl⟩

end Sys2Proof
end

section
/-! The event records of 60_exceptions.md: the code column of R240 and the connection a record carries
(R241), over all moves. -/

namespace Sys2Proof.Machine

open Sys2Proof

/-- The event a code of R240 stands for. -/
def eventOfByte (b : Byte) : Option EventCode :=
  [EventCode.framingTruncHeader, .framingTruncPayload, .readTimeout, .peerClosed, .connAbortedStop,
    .unknownCommand, .sysexUnknownDevice, .sysexUnknownExtension, .ccDecodeError, .fwBodyEmpty,
    .invalidGamma, .invalidWhitepoint, .ccSuppressedStandby, .lockTimeout, .standbyNotEngaged,
    .ctrlIllegal, .ctrlBadState, .bindError].find? fun e => decide (e.toByte = b)

theorem eventOfByte_toByte (e : EventCode) : eventOfByte e.toByte = some e := by
  cases e <;> rfl

theorem toByte_injective {e e' : EventCode} (h : e.toByte = e'.toByte) : e = e' :=
  Option.some.inj ((eventOfByte_toByte e).symm.trans ((congrArg eventOfByte h).trans (eventOfByte_toByte e')))

/-- A record tied to no connection: its code is 0x31 or above. -/
def OfPort (e : EventRec) : Prop := e.conn = none ∧ 0x31 ≤ e.code.toByte.toNat

/-- A record about some connection, or about none, with a code of its range (R241). -/
def InRange (e : EventRec) : Prop := (∃ i, OfConn i e) ∨ OfPort e

theorem InRange.conn_none_iff {e : EventRec} (h : InRange e) :
    e.conn = none ↔ 0x31 ≤ e.code.toByte.toNat := by
  rcases h with ⟨i, hc, hlt⟩ | ⟨hc, hge⟩
  · simp [hc, Nat.not_le.mpr hlt]
  · simp [hc, hge]

theorem Appends.inRange {i : Nat} {s t : State} (h : Appends (OfConn i) s t) : Appends InRange s t :=
  h.mono fun _ he => .inl ⟨i, he⟩

theorem inRange_portEvent {code : EventCode} (h : 0x31 ≤ code.toByte.toNat) (info : List InfoVal) :
    InRange (portEvent code info) := .inr ⟨rfl, h⟩

/-- The control operations report about the port, STOP about the connections it closes. -/
theorem operationOf_appends (i : Instr) (s : State) : Appends InRange s (operationOf i s) := by
  cases i with
  | ctrlStart =>
    by_cases hr : s.run = .idle
    · cases hb : s.bindOk
      · rw [operationOf, startOp_bindError hr hb]
        exact .one rfl (inRange_portEvent (by decide) _)
      · rw [operationOf, startOp_bound hr hb]
        exact .of_eq rfl
    · rw [operationOf, startOp_badState hr]
      exact .one rfl (inRange_portEvent (by decide) _)
  | ctrlStop => exact ⟨_, rfl, fun e he => .inl (stopEvents_ofConn s.lock s.conns 0 e he)⟩
  | ctrlStandbyOn =>
    simp only [operationOf, standbyOnOp]
    split <;> exact .of_eq rfl
  | ctrlStandbyOff =>
    simp only [operationOf, standbyOffOp]
    split
    · exact .of_eq rfl
    · exact .one rfl (inRange_portEvent (by decide) _)
  | ctrlIllegal code => exact .one rfl (inRange_portEvent (by decide) _)
  | setpix | setpixNoop | sysexShort | sysexCc | sysexFwflags | sysexExtUnrec | sysexDevUnrec
  | unknown => exact .of_eq rfl

theorem exec_appends {i : Instr} {s t : State} (h : exec i s = .next t) : Appends InRange s t := by
  rcases port_cases i with hi | hi
  · exact (exec_wire_appends hi h).inRange
  · rw [exec_control hi] at h
    rcases controlOp_cases h with rfl | ⟨-, rfl⟩
    · exact .of_eq rfl
    · exact operationOf_appends i s

theorem act_appends {s t : State} {m : Move} (h : act m s = .next t) (hm : m ≠ .reset) :
    Appends InRange s t := by
  rcases move_cases m with ⟨i, b, hf⟩ | rfl | ⟨code, b, rfl⟩ | rfl | rfl | ⟨i, rfl⟩ | rfl
  · exact (framer_appends hf h).inRange
  · cases h
    exact .one rfl (inRange_portEvent (by decide) _)
  · exact exec_appends (s := { s with bindOk := b }) h
  · obtain ⟨i, -, rfl⟩ := consAck_cases h
    exact (dispatchEnd_appends i (s.present .none)).inRange
  · exact absurd rfl hm
  · rcases serve_cases h with rfl | ⟨c, ins, -, -, hx⟩
    · exact .of_eq rfl
    · exact exec_appends (s := { s with cur := i }) hx
  · cases h
    exact .of_eq rfl

/-- Under the invariant the records of a move of connection `i` are about `i` (R241). -/
theorem act_conn_appends {s t : State} {m : Move} {i : Nat} {b : Byte} (hs : BlockInv s)
    (hm : m = .connOpen i ∨ m = .rxByte i b ∨ m = .rxEof i ∨ m = .rxTimeout i ∨ m = .dispatch i)
    (h : act m s = .next t) : Appends (OfConn i) s t := by
  by_cases hd : m = .dispatch i
  · subst hd
    rcases serve_cases h with rfl | ⟨c, ins, hc, hi, hx⟩
    · exact .of_eq rfl
    · exact exec_wire_appends (hs.latched_port hc hi) hx
  · exact framer_appends (i := i) (b := b) (by simpa [hd] using hm) h

end Sys2Proof.Machine

namespace Sys2Proof

open Machine

/-- Settles O59: the code column has an inverse, and every operation's records are in range. -/
theorem eventRecordsFollowTheTable : Obligations.EventRecordsFollowTheTable := by
  refine ⟨by decide, fun e e' => toByte_injective, fun s t m es h hes e he => ?_⟩
  by_cases hm : m = .reset
  · subst hm
    cases h
    obtain rfl := (List.append_eq_nil_iff.mp hes.symm).2
    cases he
  · exact ⟨((act_appends h hm).mem hes e he).conn_none_iff,
      fun i b hs hconn => ((act_conn_appends hs hconn h).mem hes e he).1⟩

end Sys2Proof
end

section
/-! The invariant of the block (10_state.md R21 to R34) at reset and over every move: no step faults
(R9), who changes `run` (R21), and what stays closed after STOP (R183). -/

namespace Sys2Proof.Machine

open Sys2Proof

/-- The invariant after reset. -/
theorem BlockInv.reset (cfg : Config) {n : Nat} (hn : 1 ≤ n) (sched : List Move) :
    BlockInv (State.resetWith cfg n sched) where
  slots := hn.trans_eq List.length_replicate.symm
  conns i c hc := by
    obtain rfl := List.eq_of_mem_replicate (List.mem_of_getElem? hc)
    exact .reset _ i
  lockHeld _ h := by cases h
  outHeld h := absurd rfl h
  request h := by cases h
  gamma := gammaLegal_b64One
  whitepoints := whitepointsLegal_iff.mpr
    ⟨gammaLegal_b64One.1, gammaLegal_b64One.1, gammaLegal_b64One.1⟩
  table := (lutTable_reset cfg.roundTie).symm
  notServing _ c hc := by
    obtain rfl := List.eq_of_mem_replicate hc
    rfl
  stopped h := by cases h

/-! ### What the invariant gives -/

/-- A connection that holds the lock is in DISP (R29). -/
theorem BlockInv.holder_inDisp {s : State} (hs : BlockInv s) {i : Nat} {c : Conn}
    (hl : s.lock = .conn i) (hc : s.conns[i]? = some c) : c.fsm = .disp := by
  obtain ⟨d, hd, hf⟩ := connIn_iff.mp (hs.lockHeld i hl).1
  rwa [Option.some.inj (hc.symm.trans hd)]

theorem BlockInv.not_closing_of_ne {s : State} (hs : BlockInv s) {i : Nat} {c : Conn}
    (hc : s.conns[i]? = some c) (hl : s.lock ≠ .conn i) : c.closing = false :=
  Bool.eq_false_iff.mpr fun ho => hl ((hs.conns i c hc).closing ho)

/-- An open connection that no STOP has marked is served by a running block (R21, R183). -/
theorem BlockInv.running_of_open {s : State} (hs : BlockInv s) {i : Nat} {c : Conn}
    (hc : s.conns[i]? = some c) (ho : c.fsm ≠ .closed) (hcl : c.closing = false) :
    s.run = .running := by
  have hmem := List.mem_of_getElem? hc
  cases hr : s.run with
  | running => rfl
  | idle => exact absurd (hs.notServing (.inl hr) c hmem) ho
  | failed => exact absurd (hs.notServing (.inr hr) c hmem) ho
  | terminated =>
    rcases hs.stopped hr c hmem with hf | hf
    · exact absurd hf ho
    · rw [hcl] at hf
      cases hf

/-- Nothing is pending at the consumer while no dispatch holds the lock (R34). -/
theorem BlockInv.no_output {s : State} (hs : BlockInv s) (hl : ∀ i, s.lock ≠ .conn i) :
    s.out = .none := by
  by_contra ho
  obtain ⟨i, hi⟩ := hs.outHeld ho
  exact hl i hi

/-- A reading connection belongs to a running block and does not hold the lock. -/
theorem BlockInv.reading {s : State} (hs : BlockInv s) {i : Nat} {c : Conn}
    (hc : s.conns[i]? = some c) (hf : c.fsm = .hdr ∨ c.fsm = .pay) :
    s.run = .running ∧ s.lock ≠ .conn i := by
  have hl : s.lock ≠ .conn i := fun h => by
    have := hs.holder_inDisp h hc
    rcases hf with hf | hf <;> simp [hf] at this
  exact ⟨hs.running_of_open hc (by rcases hf with hf | hf <;> simp [hf]) (hs.not_closing_of_ne hc hl), hl⟩

theorem StreamMove.enabled_iff {s : State} {i : Nat} {m : Move} (hm : StreamMove i m) :
    enabled s m = true ↔ ∃ c, s.conns[i]? = some c ∧ (c.fsm = .hdr ∨ c.fsm = .pay) := by
  cases hc : s.conns[i]? with
  | none => cases hm <;> simp [enabled, State.connIn, hc]
  | some c => simp [hm.enabled_eq hc]

/-- What an enabled framer move finds: a closed slot of a running block, or a reading connection. -/
theorem framer_enabled {s : State} {m : Move} {i : Nat} {b : Byte} (he : enabled s m = true)
    (hm : m = .connOpen i ∨ m = .rxByte i b ∨ m = .rxEof i ∨ m = .rxTimeout i) :
    (m = .connOpen i ∧ s.run = .running ∧ ∃ c, s.conns[i]? = some c ∧ c.fsm = .closed) ∨
    (StreamMove i m ∧ ∃ c, s.conns[i]? = some c ∧ (c.fsm = .hdr ∨ c.fsm = .pay)) := by
  rcases hm with rfl | rfl | rfl | rfl
  · exact .inl ⟨rfl, enabled_connOpen_iff.mp he⟩
  · exact .inr ⟨.byte b, (StreamMove.byte b).enabled_iff.mp he⟩
  · exact .inr ⟨.eof, StreamMove.eof.enabled_iff.mp he⟩
  · exact .inr ⟨.timeout, StreamMove.timeout.enabled_iff.mp he⟩

/-! ### No step faults -/

/-- A frame instruction or a control operation always answers a next state. -/
theorem exec_total (i : Instr) (s : State) : ∃ t, exec i s = .next t := by
  have dispatched (apply : Nat → State → State) : ∃ t, dispatchStart apply s = .next t := by
    unfold dispatchStart
    split <;> exact ⟨_, rfl⟩
  rcases port_cases i with hi | hi
  · by_cases hc : isColourCorrection i = true
    · obtain ⟨ch, body, rfl⟩ := isColourCorrection_iff.mp hc
      simp only [exec, execSysexCc]
      split
      · exact ⟨_, rfl⟩
      · exact dispatched _
    · rw [exec_wire hi (.inl (Bool.eq_false_iff.mpr hc))]
      exact dispatched _
  · rw [exec_control hi, controlOp]
    split <;> exact ⟨_, rfl⟩

/-- The framer's write and decode succeed on a reading record, and an acknowledge finds its dispatch. -/
theorem act_total {s : State} {m : Move} (hs : BlockInv s) (he : enabled s m = true) :
    ∃ t, act m s = .next t := by
  cases m with
  | rxByte i b =>
    obtain ⟨c, hc, hf⟩ := (StreamMove.byte b).enabled_iff.mp he
    obtain ⟨c', hok, -⟩ := rxByteConn_ok b (hs.conns i c hc) hf
    simp only [act, rxByte, hc, hok]
    exact ⟨_, rfl⟩
  | consAck =>
    obtain ⟨i, hl⟩ := hs.outHeld (of_decide_eq_true he)
    simp only [act, consAck, hl]
    exact ⟨_, rfl⟩
  | dispatch i =>
    obtain ⟨c, ins, hc, -, hi, -⟩ := enabled_dispatch_iff.mp he
    simp only [act, serve, hc, hi]
    exact exec_total ins _
  | ctrl code b => exact exec_total _ _
  | connOpen | rxEof | rxTimeout | standbyWaitExpired | reset | grant => exact ⟨_, rfl⟩

theorem BlockInv.sched {s : State} (hs : BlockInv s) (r : List Move) :
    BlockInv { s with sched := r } :=
  hs.of_same rfl rfl rfl rfl rfl rfl rfl rfl

/-! ### Who changes `run`, and which connections open -/

theorem act_run {s t : State} {m : Move} (hs : BlockInv s) (h : act m s = .next t)
    (hne : t.run ≠ s.run) :
    m = .reset ∨ (∃ b, m = .ctrl 0x02 b ∧ t.run = .terminated) ∨
    (∃ b, m = .ctrl 0x01 b ∧ s.run = .idle ∧ t.run = (if b then .running else .failed)) := by
  rcases move_cases m with ⟨i, b, hf⟩ | rfl | ⟨code, b, rfl⟩ | rfl | rfl | ⟨i, rfl⟩ | rfl
  · obtain ⟨f, es, rfl⟩ := act_framer hf h
    exact absurd rfl hne
  · cases h
    exact absurd rfl hne
  · rcases act_ctrl_cases h with rfl | ⟨-, rfl⟩
    · exact absurd rfl hne
    by_cases h1 : decodeCtrl code = .ctrlStart
    · obtain rfl : 0x01 = code := List.singleton_inj.mp (encode_of_decodeCtrl h1)
      rw [h1, operationOf] at hne ⊢
      by_cases hr : s.run = .idle
      · exact .inr (.inr ⟨b, rfl, hr, startOp_run (s := { s with bindOk := b }) hr⟩)
      · rw [startOp_badState (s := { s with bindOk := b }) hr] at hne
        exact absurd rfl hne
    by_cases h2 : decodeCtrl code = .ctrlStop
    · obtain rfl : 0x02 = code := List.singleton_inj.mp (encode_of_decodeCtrl h2)
      rw [h2, operationOf] at hne ⊢
      have hstop : (stopOp { s with bindOk := b }).run = if s.run = .failed then .failed else .terminated :=
        stopRun_eq s.run
      by_cases hr : s.run = .failed
      · rw [hstop, if_pos hr] at hne
        exact absurd hr.symm hne
      · exact .inr (.inl ⟨b, rfl, hstop.trans (if_neg hr)⟩)
    · exact absurd (operationOf_run h1 h2 { s with bindOk := b }) hne
  · exact absurd (act_consAck_isolated h).2.2 hne
  · exact .inl rfl
  · exact absurd (act_dispatch_isolated hs h).2.2 hne
  · cases h
    exact absurd rfl hne

/-- A record of a list with one entry changed. -/
theorem getElem?_modify_cases {cs : List Conn} {i j : Nat} {f : Conn → Conn} {c' : Conn}
    (h : (cs.modify i f)[j]? = some c') :
    (j = i ∧ ∃ c, cs[i]? = some c ∧ c' = f c) ∨ (j ≠ i ∧ cs[j]? = some c') := by
  by_cases hj : j = i
  · subst hj
    refine .inl ⟨rfl, ?_⟩
    rw [List.getElem?_modify_eq] at h
    obtain ⟨c, hc, rfl⟩ := Option.map_eq_some_iff.mp h
    exact ⟨c, hc, rfl⟩
  · rw [List.getElem?_modify_ne _ _ (Ne.symm hj)] at h
    exact .inr ⟨hj, h⟩

/-- A record of STOP's result is one record of before it (R183). -/
theorem getElem?_stopOp {s : State} {i : Nat} {c' : Conn} (h : (stopOp s).conns[i]? = some c') :
    ∃ c, s.conns[i]? = some c ∧ c' = stopConn (decide (s.lock = .conn i)) c := by
  rw [stopOp, respond_conns, stopConns_get, Nat.zero_add] at h
  obtain ⟨c, hc, rfl⟩ := Option.map_eq_some_iff.mp h
  exact ⟨c, hc, rfl⟩

theorem stopConn_open {b : Bool} {c : Conn} (h : (stopConn b c).fsm ≠ .closed) : c.fsm ≠ .closed := by
  rintro hf
  refine h ?_
  rw [stopConn_eq]
  cases b with
  | true => exact hf
  | false => simp [hf]

/-- Only CONN_OPEN opens a connection: every other enabled move serves one that is open (R170). -/
theorem act_open {s t : State} {m : Move} (hs : BlockInv s) (he : enabled s m = true)
    (h : act m s = .next t) (hm : m ≠ .reset) {j : Nat} {c' : Conn} (hc' : t.conns[j]? = some c')
    (ho : c'.fsm ≠ .closed) : (∃ c, s.conns[j]? = some c ∧ c.fsm ≠ .closed) ∨ m = .connOpen j := by
  have served {i : Nat} {f : Conn → Conn} (ht : t.conns = s.conns.modify i f)
      (hi : ∃ c, s.conns[i]? = some c ∧ c.fsm ≠ .closed) : ∃ c, s.conns[j]? = some c ∧ c.fsm ≠ .closed := by
    rw [ht] at hc'
    rcases getElem?_modify_cases hc' with ⟨rfl, -⟩ | ⟨-, hc⟩
    · exact hi
    · exact ⟨c', hc, ho⟩
  rcases move_cases m with ⟨i, b, hf⟩ | rfl | ⟨code, b, rfl⟩ | rfl | rfl | ⟨i, rfl⟩ | rfl
  · obtain ⟨f, es, rfl⟩ := act_framer hf h
    rcases framer_enabled he hf with ⟨rfl, -⟩ | ⟨-, c, hc, hr⟩
    · by_cases hj : j = i
      · exact .inr (by rw [hj])
      · exact .inl ⟨c', (modifyConn_other hj f).symm.trans hc', ho⟩
    · exact .inl (served rfl ⟨c, hc, by rcases hr with hr | hr <;> simp [hr]⟩)
  · cases h
    exact .inl ⟨c', hc', ho⟩
  · rcases act_ctrl_cases h with rfl | ⟨-, rfl⟩
    · exact .inl ⟨c', hc', ho⟩
    by_cases hstop : decodeCtrl code = .ctrlStop
    · rw [hstop] at hc'
      obtain ⟨c, hc, rfl⟩ := getElem?_stopOp hc'
      exact .inl ⟨c, hc, stopConn_open ho⟩
    · rw [operationOf_conns hstop] at hc'
      exact .inl ⟨c', hc', ho⟩
  · obtain ⟨-, ⟨i, f, hl, ht⟩, -⟩ := act_consAck_isolated h
    obtain ⟨c, hc, hd⟩ := connIn_iff.mp (hs.lockHeld i hl).1
    exact .inl (served ht ⟨c, hc, by simp [hd]⟩)
  · exact absurd rfl hm
  · obtain ⟨-, ⟨f, ht⟩, -⟩ := act_dispatch_isolated hs h
    obtain ⟨c, ins, hc, hd, -⟩ := enabled_dispatch_iff.mp he
    exact .inl (served ht ⟨c, hc, by simp [hd]⟩)
  · cases h
    exact .inl ⟨c', hc', ho⟩

end Sys2Proof.Machine

namespace Sys2Proof

open Machine

/-- Settles O49: reset leaves closed records, a free lock, an empty slot and the identity table. -/
theorem invariantHoldsAtReset : Obligations.InvariantHoldsAtReset :=
  ⟨.reset _ (by decide) _, fun cfg _ sched hn => .reset cfg hn sched⟩

/-- Settles O51: the move taken is enabled, and an enabled move answers a next state. -/
theorem noStepFaults : Obligations.NoStepFaults := by
  intro s hs
  unfold Safe step
  split
  · rename_i m rest hm
    obtain ⟨-, -, -, -, he, -⟩ := takeFirst_some hm
    exact act_total (hs.sched rest) (by rwa [enabled_sched])
  · exact ⟨s, rfl⟩

/-- Settles O57: of the moves only START, STOP and reset write `run`. -/
theorem runStateChangesOnlyByControl : Obligations.RunStateChangesOnlyByControl :=
  fun _ _ _ hs h hne => act_run hs h hne

/-- Settles O58: the run state stays TERMINATED, in which CONN_OPEN is not enabled. -/
theorem noConnectionOpensAfterStop : Obligations.NoConnectionOpensAfterStop := by
  intro s t m hs he h hr hm
  refine ⟨?_, fun i c' hc' ho => (act_open hs he h hm hc' ho).resolve_right ?_⟩
  · by_contra hne
    rcases act_run hs h (by rwa [hr]) with rfl | ⟨b, -, ht⟩ | ⟨b, -, hidle, -⟩
    · exact hm rfl
    · exact hne ht
    · rw [hr] at hidle
      cases hidle
  · rintro rfl
    have := (enabled_connOpen_iff.mp he).1
    rw [hr] at this
    cases this

end Sys2Proof
end

section
/-! Every step keeps the invariant (10_state.md R22 to R34): the part about the connections and the lock
move by move, the colour part by its one writer, the closed records by the only move that opens one. -/

namespace Sys2Proof.Machine

open Sys2Proof

/-- The part of the invariant about the records, the lock, the request and the output slot. -/
structure SessionInv (s : State) : Prop where
  conns : ∀ i c, s.conns[i]? = some c → ConnInv s.lock i c
  lockHeld : ∀ i, s.lock = .conn i → s.connIn i .disp = true ∧ s.out ≠ .none
  outHeld : s.out ≠ .none → ∃ i, s.lock = .conn i
  request : s.stbyReq = true → s.lock ≠ .standby
  stopped : s.run = .terminated → ∀ c ∈ s.conns, c.fsm = .closed ∨ c.closing = true

theorem ConnInv.atBoundary {l : Lock} {i : Nat} {c : Conn} (h : ConnInv l i c) :
    ConnInv l i c.atBoundary :=
  ⟨h.buffer, h.closing, by simp, by simp, by simp, by simp⟩

theorem ConnInv.opened {l : Lock} {i : Nat} {c : Conn} (h : ConnInv l i c) (hf : c.fsm = .closed) :
    ConnInv l i c.opened :=
  ⟨h.buffer, nofun, nofun, fun _ => ⟨Nat.zero_le 3, rfl, (h.closedForm hf).2.2⟩, nofun, nofun⟩

/-- One record of a running block that does not hold the lock is changed. -/
theorem BlockInv.session_modify {s t : State} (hs : BlockInv s) {i : Nat} {f : Conn → Conn}
    (hrun : s.run = .running) (hl : s.lock ≠ .conn i)
    (hf : ∀ c, s.conns[i]? = some c → ConnInv s.lock i (f c)) (trun : t.run = s.run)
    (tconns : t.conns = s.conns.modify i f) (tlock : t.lock = s.lock) (treq : t.stbyReq = s.stbyReq)
    (tout : t.out = s.out) : SessionInv t where
  conns j c' hc' := by
    rw [tconns] at hc'
    rw [tlock]
    rcases getElem?_modify_cases hc' with ⟨rfl, c, hc, rfl⟩ | ⟨-, hc⟩
    · exact hf c hc
    · exact hs.conns j c' hc
  lockHeld j hj := by
    rw [tlock] at hj
    have hji : i ≠ j := fun h => hl (h ▸ hj)
    obtain ⟨hd, ho⟩ := hs.lockHeld j hj
    rw [State.connIn, tconns, List.getElem?_modify_ne _ _ hji, tout]
    exact ⟨hd, ho⟩
  outHeld ho := by
    rw [tlock]
    exact hs.outHeld (tout ▸ ho)
  request hr := by
    rw [tlock]
    exact hs.request (treq ▸ hr)
  stopped hr := by
    rw [trun, hrun] at hr
    cases hr

/-- The records and the output stay; the lock stays, or neither was nor becomes a dispatch's. -/
theorem BlockInv.session_relock {s t : State} (hs : BlockInv s)
    (trun : t.run = .terminated → s.run = .terminated) (tconns : t.conns = s.conns)
    (tlock : t.lock = s.lock ∨ ((∀ i, s.lock ≠ .conn i) ∧ ∀ i, t.lock ≠ .conn i))
    (treq : t.stbyReq = true → t.lock ≠ .standby) (tout : t.out = s.out) : SessionInv t where
  conns i c hc := by
    rw [tconns] at hc
    have hi := hs.conns i c hc
    rcases tlock with hl | ⟨hl, -⟩
    · rwa [hl]
    · exact hi.of_lock fun ho => absurd (hi.closing ho) (hl i)
  lockHeld i hi := by
    rw [State.connIn, tconns, tout]
    rcases tlock with hl | ⟨-, hl⟩
    · exact hs.lockHeld i (hl ▸ hi)
    · exact absurd hi (hl i)
  outHeld ho := by
    rw [tout] at ho
    rcases tlock with hl | ⟨hl, -⟩
    · rw [hl]
      exact hs.outHeld ho
    · exact absurd (hs.no_output hl) ho
  request := treq
  stopped hr := by
    rw [tconns]
    exact hs.stopped (trun hr)

/-- A connection in DISP takes the free lock and presents an output (R211, R221). -/
theorem BlockInv.session_take {s t : State} (hs : BlockInv s) {i : Nat} (hl : s.lock = .free)
    (hd : s.connIn i .disp = true) (trun : t.run = s.run) (tconns : t.conns = s.conns)
    (tlock : t.lock = .conn i) (tout : t.out ≠ .none) : SessionInv t where
  conns j c hc := by
    rw [tconns] at hc
    refine (hs.conns j c hc).of_lock fun ho => ?_
    rw [hs.not_closing hl hc] at ho
    cases ho
  lockHeld j hj := by
    obtain rfl : i = j := Lock.conn.inj (tlock.symm.trans hj)
    rw [State.connIn, tconns]
    exact ⟨hd, tout⟩
  outHeld _ := ⟨i, tlock⟩
  request _ h := by
    rw [tlock] at h
    cases h
  stopped hr := by
    rw [tconns]
    exact hs.stopped (trun ▸ hr)

/-- The dispatch that holds the lock ends: its record becomes `d`, the lock free, the slot empty (R222). -/
theorem BlockInv.session_release {s t : State} (hs : BlockInv s) {i : Nat} {d : Conn}
    (hl : s.lock = .conn i) (hd : ConnInv .free i d)
    (hstop : s.run = .terminated → d.fsm = .closed) (trun : t.run = s.run)
    (tconns : t.conns = s.conns.set i d) (tlock : t.lock = .free) (tout : t.out = .none) :
    SessionInv t where
  conns j c hc := by
    rw [tconns] at hc
    rw [tlock]
    by_cases hj : i = j
    · subst hj
      obtain ⟨hi, rfl⟩ := List.getElem?_eq_some_iff.mp hc
      rwa [List.getElem_set_self hi]
    · rw [List.getElem?_set_ne hj] at hc
      have hi := hs.conns j c hc
      exact hi.of_lock fun ho => absurd (Lock.conn.inj (hl.symm.trans (hi.closing ho))) hj
  lockHeld j hj := by
    rw [tlock] at hj
    cases hj
  outHeld ho := absurd tout ho
  request _ h := by
    rw [tlock] at h
    cases h
  stopped hr c hc := by
    rw [trun] at hr
    rw [tconns] at hc
    rcases List.mem_or_eq_of_mem_set hc with hc | rfl
    · exact hs.stopped hr c hc
    · exact .inl (hstop hr)

theorem ConnInv.shut_unmarked {l : Lock} {i : Nat} {c : Conn} (h : ConnInv l i c) :
    ConnInv l i { c.shut with closing := false } :=
  ⟨h.buffer, nofun, by simp, by simp, by simp, by simp⟩

/-- STOP on a record: the holder of the lock is marked, any other closes (R183). -/
theorem ConnInv.stopConn {l : Lock} {i : Nat} {c : Conn} (h : ConnInv l i c) :
    ConnInv l i (stopConn (decide (l = .conn i)) c) := by
  rw [stopConn_eq]
  split
  · rename_i hl
    exact ⟨h.buffer, fun _ => of_decide_eq_true hl, h.closedForm, h.hdrForm, h.payForm, h.dispForm⟩
  · split
    · exact h
    · exact h.close

theorem stopConn_done (b : Bool) (c : Conn) :
    (stopConn b c).fsm = .closed ∨ (stopConn b c).closing = true := by
  rw [stopConn_eq]
  cases b with
  | true => exact .inr rfl
  | false => by_cases hf : c.fsm = .closed <;> simp [hf]

/-- STOP marks the dispatch in progress and closes every other connection (R183). -/
theorem BlockInv.session_stop {s : State} (hs : BlockInv s) : SessionInv (stopOp s) where
  conns i c' hc' := by
    obtain ⟨c, hc, rfl⟩ := getElem?_stopOp hc'
    exact (hs.conns i c hc).stopConn
  lockHeld i hl := by
    obtain ⟨hd, ho⟩ := hs.lockHeld i hl
    obtain ⟨c, hc, hf⟩ := connIn_iff.mp hd
    refine ⟨connIn_iff.mpr ⟨stopConn true c, ?_, hf⟩, ho⟩
    have hl : s.lock = .conn i := hl
    rw [stopOp, respond_conns, stopConns_get, hc, Nat.zero_add, hl, decide_eq_true rfl]
    rfl
  outHeld := hs.outHeld
  request := hs.request
  stopped _ c' hc' := by
    obtain ⟨i, hi⟩ := List.mem_iff_getElem?.mp hc'
    obtain ⟨c, -, rfl⟩ := getElem?_stopOp hi
    exact stopConn_done _ c

/-- A control operation with no response outstanding: STOP, or one that leaves the records and the output
and gives a lock that fits the request (R181 to R191). -/
theorem BlockInv.session_operation {s : State} (hs : BlockInv s) (hreq : s.stbyReq = false) (i : Instr) :
    SessionInv (operationOf i s) := by
  by_cases hstop : i = .ctrlStop
  · subst hstop
    exact hs.session_stop
  have hconns := operationOf_conns hstop s
  obtain ⟨es, rs, hw⟩ := operationOf_writes i s
  have hout : (operationOf i s).out = s.out := by rw [hw]
  have hrun : (operationOf i s).run = .terminated → s.run = .terminated := by
    by_cases hstart : i = .ctrlStart
    · subst hstart
      by_cases hr : s.run = .idle
      · intro h
        rw [operationOf, startOp_run hr] at h
        split at h <;> cases h
      · rw [operationOf, startOp_badState hr]
        exact id
    · rw [operationOf_run hstart hstop]
      exact id
  by_cases hon : i = .ctrlStandbyOn
  · subst hon
    cases hl : s.lock with
    | free =>
      have hop : operationOf .ctrlStandbyOn s = _ := standbyOnOp_free hl
      refine hs.session_relock hrun hconns (.inr ⟨by simp [hl], by rw [hop]; simp⟩) ?_ hout
      rw [hop]
      exact fun h => absurd h (Bool.eq_false_iff.mp hreq)
    | standby =>
      have hop : operationOf .ctrlStandbyOn s = _ := standbyOnOp_engaged hl
      refine hs.session_relock hrun hconns (.inl (by rw [hop])) ?_ hout
      rw [hop]
      exact hs.request
    | conn j =>
      have hop : operationOf .ctrlStandbyOn s = _ := standbyOnOp_waits hl
      refine hs.session_relock hrun hconns (.inl (by rw [hop])) ?_ hout
      rw [hop]
      simp [hl]
  by_cases hoff : i = .ctrlStandbyOff
  · subst hoff
    by_cases hl : s.lock = .standby
    · have hop : operationOf .ctrlStandbyOff s = _ := standbyOffOp_of_standby hl
      refine hs.session_relock hrun hconns (.inr ⟨by simp [hl], by rw [hop]; simp⟩) ?_ hout
      rw [hop]
      simp
    · have hop : operationOf .ctrlStandbyOff s = _ := standbyOffOp_of_ne hl
      refine hs.session_relock hrun hconns (.inl (by rw [hop])) ?_ hout
      rw [hop]
      exact hs.request
  · obtain ⟨hlock, hsame⟩ := operationOf_lock hon hoff s
    exact hs.session_relock hrun hconns (.inl hlock) (by rw [hlock, hsame]; exact hs.request) hout

theorem BlockInv.session {s : State} (hs : BlockInv s) : SessionInv s :=
  ⟨hs.conns, hs.lockHeld, hs.outHeld, hs.request, hs.stopped⟩

/-- An acknowledge ends the dispatch that holds the lock (R221, R222). -/
theorem BlockInv.session_consAck {s t : State} (hs : BlockInv s) (h : act .consAck s = .next t) :
    SessionInv t := by
  obtain ⟨i, hl, rfl⟩ := consAck_cases h
  obtain ⟨c, hc, hd⟩ := connIn_iff.mp (hs.lockHeld i hl).1
  have hi := hs.conns i c hc
  have hc' : (s.present .none).conns[i]? = some c := hc
  cases hcl : c.closing with
  | true =>
    rw [dispatchEnd_closing hc' hcl]
    exact hs.session_release hl (hi.shut_unmarked.of_lock nofun) (fun _ => rfl) rfl rfl rfl rfl
  | false =>
    rw [dispatchEnd_open hc' hcl]
    refine hs.session_release hl (hi.atBoundary.of_lock fun ho => ?_) (fun hr => ?_) rfl rfl rfl rfl
    · exact absurd ho (Bool.eq_false_iff.mp hcl)
    · have := hs.running_of_open hc (by simp [hd]) hcl
      rw [hr] at this
      cases this

/-- A dispatch under the invariant: it waits, or its command presents an output under the lock, or it is
served and its record is back at a header (R211, R222). -/
theorem BlockInv.session_dispatchStart {ins : Instr} {s t : State} (hs : BlockInv s)
    (h : dispatchStart (commandOf ins) s = .next t) : SessionInv t := by
  rcases dispatchStart_cases h with rfl | ⟨hd, hl, rfl⟩
  · exact hs.session
  have hu := commandOf_frame ins s.cur (s.setLock (.conn s.cur))
  by_cases ho : (commandOf ins s.cur (s.setLock (.conn s.cur))).out = .none
  · obtain ⟨c, hc, hf⟩ := connIn_iff.mp hd
    have hcl := hs.not_closing hl hc
    have hset : s.conns.set s.cur c.atBoundary = s.conns.modify s.cur Conn.atBoundary :=
      congrArg State.conns (modifyConn_eq_putConn hc Conn.atBoundary).symm
    rw [endIfNoOutput, if_pos ho, dispatchEnd_open (by rw [hu.conns]; exact hc) hcl]
    refine hs.session_modify (i := s.cur) (f := Conn.atBoundary) (hs.running_of_open hc (by simp [hf]) hcl)
      (by simp [hl]) (fun d hd => (hs.conns _ d hd).atBoundary) hu.run ?_ hl.symm hu.stbyReq
      (ho.trans (hs.no_output (by simp [hl])).symm)
    rw [putConn_conns, hu.conns]
    exact hset
  · rw [endIfNoOutput, if_neg ho]
    exact hs.session_take hl hd hu.run hu.conns hu.lock ho

/-- The dispatch of a frame instruction, in standby too (R219). -/
theorem BlockInv.session_exec_wire {ins : Instr} (hp : ins.port = .wire) {s t : State} (hs : BlockInv s)
    (h : exec ins s = .next t) : SessionInv t := by
  rcases exec_wire_cases hp h with hd | ⟨_, _, e, -, hl, hd, rfl⟩
  · exact hs.session_dispatchStart hd
  · obtain ⟨c, hc, hf⟩ := connIn_iff.mp hd
    have hcl := hs.not_closing_of_ne hc (by simp [hl])
    exact hs.session_modify (i := s.cur) (f := Conn.nextHeader) (hs.running_of_open hc (by simp [hf]) hcl)
      (by simp [hl]) (fun d hd => (hs.conns _ d hd).atBoundary) rfl rfl rfl rfl rfl

/-- A framer move changes one record of a running block and keeps what R22 to R27 say of it. -/
theorem BlockInv.session_framer {s t : State} {m : Move} {i : Nat} {b : Byte} (hs : BlockInv s)
    (he : enabled s m = true) (hm : m = .connOpen i ∨ m = .rxByte i b ∨ m = .rxEof i ∨ m = .rxTimeout i)
    (h : act m s = .next t) : SessionInv t := by
  rcases framer_enabled he hm with ⟨rfl, hr, c, hc, hf⟩ | ⟨hstream, c, hc, hf⟩
  · cases h
    have hl : s.lock ≠ .conn i := fun hl => by
      have := hs.holder_inDisp hl hc
      rw [hf] at this
      cases this
    refine hs.session_modify hr hl (fun d hd => ?_) rfl (modifyConn_conns s i Conn.opened) rfl rfl rfl
    obtain rfl := Option.some.inj (hc.symm.trans hd)
    exact (hs.conns i _ hc).opened hf
  · obtain ⟨hr, hl⟩ := hs.reading hc hf
    have hi := hs.conns i c hc
    have closed {e : EventRec} : SessionInv ((s.emit e).modifyConn i Conn.close) :=
      hs.session_modify hr hl (fun d hd => (hs.conns i d hd).close) rfl rfl rfl rfl rfl
    cases hstream with
    | byte b =>
      obtain ⟨c', hok, hc'⟩ := rxByteConn_ok b hi hf
      simp only [act, rxByte, hc, hok] at h
      cases h
      exact hs.session_modify hr hl (fun _ _ => hc') rfl (modifyConn_conns s i fun _ => c') rfl rfl rfl
    | eof =>
      cases h
      simp only [rxEof, hc]
      split
      · exact closed
      · exact hs.session
    | timeout =>
      cases h
      simp only [rxTimeout, hc, if_pos hf]
      exact closed

theorem act_session {s t : State} {m : Move} (hs : BlockInv s) (he : enabled s m = true)
    (h : act m s = .next t) (hm : m ≠ .reset) : SessionInv t := by
  rcases move_cases m with ⟨i, b, hf⟩ | rfl | ⟨code, b, rfl⟩ | rfl | rfl | ⟨i, rfl⟩ | rfl
  · exact hs.session_framer he hf h
  · cases h
    exact hs.session_relock id rfl (.inl rfl) nofun rfl
  · have hs' : BlockInv { s with bindOk := b } := hs.of_same rfl rfl rfl rfl rfl rfl rfl rfl
    rcases act_ctrl_cases h with rfl | ⟨hr, rfl⟩
    · exact hs'.session
    · exact hs'.session_operation hr _
  · exact hs.session_consAck h
  · exact absurd rfl hm
  · have hs' : BlockInv { s with cur := i } := hs.of_same rfl rfl rfl rfl rfl rfl rfl rfl
    rcases serve_cases h with rfl | ⟨c, ins, hc, hi, hx⟩
    · exact hs.session
    · exact hs'.session_exec_wire (hs.latched_port hc hi) hx
  · cases h
    obtain ⟨-, hl⟩ := enabled_grant_iff.mp he
    exact hs.session_relock id rfl (.inr ⟨by simp [hl], nofun⟩) nofun rfl

/-- The part of the invariant about the parameters and the table (R31, R32). -/
structure ColourInv (s : State) : Prop where
  gamma : gammaLegal s.params.gamma
  whitepoints : whitepointsLegal s.params
  table : s.lut = lutTable s.cfg.roundTie s.params

/-- The one writer of the parameters writes legal ones and their table (R31, R32, R142). -/
theorem act_colour {s t : State} {m : Move} (hs : BlockInv s) (h : act m s = .next t)
    (hm : m ≠ .reset) : ColourInv t := by
  have hcfg := (act_frame h hm).cfg
  have same (hp : t.params = s.params) (hl : t.lut = s.lut) : ColourInv t :=
    ⟨hp ▸ hs.gamma, hp ▸ hs.whitepoints, by rw [hl, hp, hcfg]; exact hs.table⟩
  rcases act_shared h hm with hsame | ⟨i, c, ins, -, -, -, hx⟩
  · obtain ⟨hp, hl, -⟩ := shared_eq_iff.mp hsame
    exact same hp hl
  · rcases exec_params hx with ⟨hp, hl⟩ | ⟨ch, body, -, -, -, herr, hlut⟩
    · exact same hp hl
    · obtain ⟨hg, hw⟩ := paramError_none_iff.mp herr
      exact ⟨hg, hw, by rw [hlut, hcfg]⟩

/-- While the block does not serve, every connection is closed: the block did not serve before the move
either, and the move opens none (R21, R242). -/
theorem act_notServing {s t : State} {m : Move} (hs : BlockInv s) (he : enabled s m = true)
    (h : act m s = .next t) (hm : m ≠ .reset) (hr : t.run = .idle ∨ t.run = .failed) :
    ∀ c ∈ t.conns, c.fsm = .closed := by
  have hsr : s.run = .idle ∨ s.run = .failed := by
    by_cases hne : t.run = s.run
    · rwa [← hne]
    · rcases act_run hs h hne with rfl | ⟨b, -, ht⟩ | ⟨b, -, hidle, -⟩
      · exact absurd rfl hm
      · simp [ht] at hr
      · exact .inl hidle
  intro c' hmem
  by_contra ho
  obtain ⟨j, hj⟩ := List.mem_iff_getElem?.mp hmem
  rcases act_open hs he h hm hj ho with ⟨c, hc, hco⟩ | rfl
  · exact hco (hs.notServing hsr c (List.mem_of_getElem? hc))
  · have := (enabled_connOpen_iff.mp he).1
    simp [this] at hsr

/-- Every enabled move keeps the invariant, reset by giving it anew. -/
theorem act_keeps_inv {s t : State} {m : Move} (hs : BlockInv s) (he : enabled s m = true)
    (h : act m s = .next t) : BlockInv t := by
  by_cases hm : m = .reset
  · subst hm
    cases h
    exact .reset s.cfg hs.slots s.sched
  · have hsession := act_session hs he h hm
    have hcolour := act_colour hs h hm
    exact {
      slots := (act_frame h hm).slots ▸ hs.slots
      conns := hsession.conns
      lockHeld := hsession.lockHeld
      outHeld := hsession.outHeld
      request := hsession.request
      gamma := hcolour.gamma
      whitepoints := hcolour.whitepoints
      table := hcolour.table
      notServing := act_notServing hs he h hm
      stopped := hsession.stopped }

end Sys2Proof.Machine

namespace Sys2Proof

open Machine

/-- Settles O50: a step changes nothing or takes one enabled move, which keeps the invariant. -/
theorem everyStepKeepsTheInvariant : Obligations.EveryStepKeepsTheInvariant := by
  intro s t hs h
  rcases step_cases h with rfl | ⟨m, pre, post, -, he, hact⟩
  · exact hs
  · exact act_keeps_inv (hs.sched (pre ++ post)) (by rwa [enabled_sched]) hact

end Sys2Proof
end

section
/-! The standby barrier (20_memory.md R59, 60_exceptions.md R254): what each move makes of the lock, and
so how standby is entered and left. -/

namespace Sys2Proof.Machine

open Sys2Proof

/-- A dispatch leaves the lock, or takes it when it is free and keeps or frees it (R211, R219, R222). -/
theorem exec_wire_lock {ins : Instr} (hp : ins.port = .wire) {s t : State}
    (h : exec ins s = .next t) : t.lock = s.lock ∨ (s.lock ≠ .standby ∧ t.lock ≠ .standby) := by
  rcases exec_wire_cases hp h with hd | ⟨_, _, e, -, -, -, rfl⟩
  · rcases dispatchStart_cases hd with rfl | ⟨-, hl, rfl⟩
    · exact .inl rfl
    · refine .inr ⟨by simp [hl], ?_⟩
      have hu := (commandOf_frame ins s.cur (s.setLock (.conn s.cur))).lock
      rcases endIfNoOutput_cases s.cur (commandOf ins s.cur (s.setLock (.conn s.cur))) with he | ⟨-, he⟩
      · rw [he, hu]
        nofun
      · obtain ⟨f, es, hend, -⟩ := dispatchEnd_cases s.cur (commandOf ins s.cur (s.setLock (.conn s.cur)))
        rw [he, hend]
        nofun
  · exact .inl rfl

/-- What a move makes of the lock. -/
inductive LockStep (s t : State) (m : Move) : Prop
  /-- The lock stays. -/
  | kept (h : t.lock = s.lock)
  /-- A dispatch takes or frees it. -/
  | dispatch (hs : s.lock ≠ .standby) (ht : t.lock ≠ .standby)
  /-- STANDBY_OFF frees it (R187). -/
  | released (ht : t.lock ≠ .standby) (hm : ∃ b, m = .ctrl 0x04 b)
  /-- The grant or STANDBY_ON engages standby and is answered OK (R184, R185). -/
  | engaged (hs : s.lock = .free) (hr : t.resps = s.resps ++ [.ok]) (hq : t.stbyReq = false)
      (hm : (m = .grant ∧ s.stbyReq = true) ∨ ∃ b, m = .ctrl 0x03 b)

theorem lock_cases (l : Lock) : l = .free ∨ l = .standby ∨ ∃ j, l = .conn j := by
  cases l <;> simp

theorem operationOf_lockStep {s : State} {code : Byte} (b : Bool) (hr : s.stbyReq = false) :
    LockStep s (operationOf (decodeCtrl code) { s with bindOk := b }) (.ctrl code b) := by
  by_cases hon : decodeCtrl code = .ctrlStandbyOn
  · obtain rfl : 0x03 = code := List.singleton_inj.mp (encode_of_decodeCtrl hon)
    rw [hon, operationOf]
    rcases lock_cases s.lock with hl | hl | ⟨j, hl⟩
    · rw [standbyOnOp_free (s := { s with bindOk := b }) hl]
      exact .engaged hl rfl hr (.inr ⟨b, rfl⟩)
    · rw [standbyOnOp_engaged (s := { s with bindOk := b }) hl]
      exact .kept rfl
    · rw [standbyOnOp_waits (s := { s with bindOk := b }) hl]
      exact .kept rfl
  by_cases hoff : decodeCtrl code = .ctrlStandbyOff
  · obtain rfl : 0x04 = code := List.singleton_inj.mp (encode_of_decodeCtrl hoff)
    rw [hoff, operationOf]
    by_cases hl : s.lock = .standby
    · rw [standbyOffOp_of_standby (s := { s with bindOk := b }) hl]
      exact .released nofun ⟨b, rfl⟩
    · rw [standbyOffOp_of_ne (s := { s with bindOk := b }) hl]
      exact .kept rfl
  · exact .kept (operationOf_lock hon hoff { s with bindOk := b }).1

theorem act_lockStep {s t : State} {m : Move} (hs : BlockInv s) (he : enabled s m = true)
    (h : act m s = .next t) (hm : m ≠ .reset) : LockStep s t m := by
  rcases move_cases m with ⟨i, b, hf⟩ | rfl | ⟨code, b, rfl⟩ | rfl | rfl | ⟨i, rfl⟩ | rfl
  · obtain ⟨f, es, rfl⟩ := act_framer hf h
    exact .kept rfl
  · cases h
    exact .kept rfl
  · rcases act_ctrl_cases h with rfl | ⟨hr, rfl⟩
    · exact .kept rfl
    · exact operationOf_lockStep b hr
  · obtain ⟨i, hl, rfl⟩ := consAck_cases h
    obtain ⟨f, es, hd, -⟩ := dispatchEnd_cases i (s.present .none)
    exact .dispatch (by simp [hl]) (by simp [hd])
  · exact absurd rfl hm
  · rcases serve_cases h with rfl | ⟨c, ins, hc, hi, hx⟩
    · exact .kept rfl
    · exact (exec_wire_lock (hs.latched_port hc hi) hx).elim (fun hk => .kept hk)
        fun ⟨h1, h2⟩ => .dispatch h1 h2
  · cases h
    obtain ⟨hr, hl⟩ := enabled_grant_iff.mp he
    exact .engaged hl rfl rfl (.inl ⟨rfl, hr⟩)

/-- In standby no move but reset writes the shared registers: their writers need a free lock (R62). -/
theorem act_shared_of_standby {s t : State} {m : Move} (hl : s.lock = .standby)
    (h : act m s = .next t) (hm : m ≠ .reset) : t.shared = s.shared := by
  have hfree : s.lock ≠ .free := by simp [hl]
  refine (act_shared h hm).elim id ?_
  rintro ⟨i, c, ins, -, -, -, hx⟩
  obtain ⟨hp, hlut⟩ := (exec_params hx).resolve_right fun ⟨_, _, _, hf, _⟩ => hfree hf
  have hfw := (exec_fw hx).resolve_right fun ⟨_, _, _, _, hf, _⟩ => hfree hf
  exact shared_eq_iff.mpr ⟨hp, hlut, hfw⟩

end Sys2Proof.Machine

namespace Sys2Proof

open Machine

/-- Settles O52: only STANDBY_OFF and reset leave standby, only the grant and STANDBY_ON enter it, and the
invariant keeps the slot empty while no dispatch holds the lock. -/
theorem standbyIsABarrier : Obligations.StandbyIsABarrier := by
  refine ⟨fun s t m hs hl he h hm hoff => ?_, fun s t m hs hl he h ht => ?_⟩
  · have hlock : t.lock = .standby := by
      cases act_lockStep hs he h hm with
      | kept hk => exact hk.trans hl
      | dispatch hn => exact absurd hl hn
      | released _ hb =>
        obtain ⟨b, hb⟩ := hb
        exact absurd hb (hoff b)
      | engaged hfree => simp [hl] at hfree
    have hout : t.out = .none := (act_keeps_inv hs he h).no_output (by simp [hlock])
    exact ⟨hlock, hout, shared_eq_iff.mp (act_shared_of_standby hl h hm)⟩
  · by_cases hm : m = .reset
    · subst hm
      cases h
      cases ht
    · cases act_lockStep hs he h hm with
      | kept hk => exact absurd (hk.symm.trans ht) hl
      | dispatch _ hn => exact absurd ht hn
      | released hn _ => exact absurd ht hn
      | engaged hfree hr hq hcause => exact ⟨hfree, hr, hq, hcause⟩

end Sys2Proof
end
